-- ==== Sys2Proof/Word.lean ====
section
/-! DEFINITION. The words of the block: bytes, 16-bit register words, 32-bit message words (R9), and the
size of caller memory (R26). -/

namespace Sys2Proof

/-- One byte of caller memory, an unpacked entry, a function code or a STATUS (R9, R26). -/
abbrev Byte := BitVec 8

/-- A Modbus register word (R9 `WORD_W`, R121). -/
abbrev Word16 := BitVec 16

/-- A word of the command or response message, or a float bit pattern (R9 `CMD_W`, `OP_W`, `FLOAT_W`). -/
abbrev Word32 := BitVec 32

/-- Caller memory has the addresses `0` to `2^32 - 1` (R26). -/
abbrev addrSpace : Nat := 2 ^ 32

end Sys2Proof
end

