-- ==== Sys2Proof/Syntax.lean ====
section
/-! DEFINITION. The command message (R60), the twelve commands with the operands each reads (R67, R70), and
the length classes of the length ROM (R80, R81, R84). -/

namespace Sys2Proof

/-- A command message: five 32-bit words, presented to the command port at once (R60). -/
structure Command where
  cmd : Word32
  opa : Word32
  opb : Word32
  opc : Word32
  opd : Word32
deriving DecidableEq, Repr

/-- The twelve commands, one constructor per row of the opcode table (R67). A constructor holds exactly the
operand bits its command reads, at the width R70 gives them; every other operand bit is ignored. -/
inductive Instr where
  | fwrDecAbcd (w0 w1 : Word16)
  | fwrDecDcba (w0 w1 : Word16)
  | fwrDecBadc (w0 w1 : Word16)
  | fwrDecCdab (w0 w1 : Word16)
  | fwrEncAbcd (v : Word32)
  | fwrEncDcba (v : Word32)
  | fwrEncBadc (v : Word32)
  | fwrEncCdab (v : Word32)
  | bpkUnpackByte (dest idx : Word32) (value : Byte)
  | bpkUnpackBytes (dest idx nbBits src : Word32)
  | bpkPackByte (src idx nbBits : Word32)
  | rlrLookup (fc : Byte) (payload : Word32)
deriving DecidableEq, Repr

/-- The six length classes an entry of the length ROM can hold (R80). -/
inductive LengthClass where
  | bits
  | regs
  | const3
  | unknown
  | const7
  | const5
deriving DecidableEq, Repr

/-- An expected length: a byte count, or the tag saying that it cannot be predicted (R15, R84). -/
inductive Length where
  | known (n : Nat)
  | unknown
deriving DecidableEq, Repr

end Sys2Proof
end

