-- ==== Sys2Proof/Machine/Operands.lean ====
section
/-! DEFINITION. The fields of the command word (R62), the operand forms (R70), address formation (R43, R109),
the big-endian quantity (R82) and the bit lanes of a packed byte (R100, R112). -/

namespace Sys2Proof

/-- CMD[31:8], reserved (R62). -/
def Command.rsvd (c : Command) : BitVec 24 := c.cmd.extractLsb' 8 24

/-- CMD[7:6], which selects the unit (R62, R63). -/
def Command.unit (c : Command) : BitVec 2 := c.cmd.extractLsb' 6 2

/-- CMD[5:4], the ordering of an FWR command (R62). -/
def Command.ord (c : Command) : BitVec 2 := c.cmd.extractLsb' 4 2

/-- CMD[3:0], which selects the operation within the unit (R62). -/
def Command.sub (c : Command) : BitVec 4 := c.cmd.extractLsb' 0 4

/-- CMD[7:0], the byte the decoder's table is keyed by (R67). -/
def Command.low (c : Command) : Byte := c.cmd.extractLsb' 0 8

/-- A 16-bit operand: bits 15:0 of an operand word (R70). -/
def word16Of (w : Word32) : Word16 := w.extractLsb' 0 16

/-- An 8-bit operand: bits 7:0 of an operand word (R70). -/
def byteOf (w : Word32) : Byte := w.extractLsb' 0 8

/-- The upper half of an operand word of which a command reads bits 15:0 only. -/
def aboveWord16 (w : Word32) : Word16 := w.extractLsb' 16 16

/-- The upper bits of an operand word of which a command reads bits 7:0 only. -/
def aboveByte (w : Word32) : BitVec 24 := w.extractLsb' 8 24

/-- `zext_32` of a narrower result or operand (R11). -/
def zext32 {n : Nat} (v : BitVec n) : Word32 := v.setWidth 32

namespace Machine

/-- `ceil_div(n, d)`, the least `q` with `d * q >= n` (R12). -/
def ceilDiv (n d : Nat) : Nat := (n + d - 1) / d

/-- The exact address of entry `idx + k` of an unpacked array at `base` (R43, R109): a natural, never reduced. -/
def entryAddr (base idx : Word32) (k : Nat) : Nat := base.toNat + idx.toNat + k

/-- The exact address of packed byte `j` of a packed array at `src` (R109). -/
def packedAddr (src : Word32) (j : Nat) : Nat := src.toNat + j

/-- The exact address of a payload offset (R43, R82). -/
def payloadAddr (payload : Word32) (offset : Nat) : Nat := payload.toNat + offset

/-- The 16-bit quantity: the byte at payload offset 2 is the high byte (R42, R82). -/
def quantity (hi lo : Byte) : Word16 := hi ++ lo

/-- The entry BPK writes for a bit: exactly 0x00 or 0x01 (R100). -/
def entryOfBit (b : Bool) : Byte := if b then 1 else 0

/-- The bit BPK reads from an entry: every nonzero byte counts as 1 (R100). -/
def bitOfEntry (e : Byte) : Bool := e != 0

/-- The byte with the given bits in lanes 0, 1, ... from the least significant (R112); lanes not given are 0. -/
def packBits : List Bool → Byte
  | [] => 0
  | b :: bs => entryOfBit b ||| (packBits bs <<< 1)

/-- The high byte of a register word (R121). -/
def hiByte (w : Word16) : Byte := w.extractLsb' 8 8

/-- The low byte of a register word (R121). -/
def loByte (w : Word16) : Byte := w.extractLsb' 0 8

/-- `byte_k(V)`, that is V[8k+7:8k] (R11); the bytes A, B, C, D of R120 are `byteK 3` down to `byteK 0`. -/
def byteK (k : Nat) (v : Word32) : Byte := v.extractLsb' (8 * k) 8

end Machine
end Sys2Proof
end

