-- ==== Sys2Proof/WellFormed.lean ====
section
/-! DEFINITION. Well-formed commands: the legal command words (R62 to R66, R68) and the messages an assembler
writes, with 0 in every bit the command ignores (R70, R73). An `Instr` needs no check of its own: the type of
each operand is its field's width, so an operand that does not fit cannot be written. -/

namespace Sys2Proof

/-- CMD is one of the twelve legal values, read field by field: RSVD is 0, and UNIT, ORD and SUB are legal
together (R63 to R66; the five kinds of illegal value are R68's list). -/
def Command.legal (c : Command) : Bool :=
  c.rsvd == 0 &&
    (if c.unit = 1#2 then c.sub.extractLsb' 1 3 == 0
     else if c.unit = 2#2 then c.ord == 0 && decide (c.sub.toNat < 3)
     else if c.unit = 3#2 then c.ord == 0 && c.sub == 0
     else false)

/-- Every operand bit the command ignores is 0 (R70, R73). It says nothing of an illegal command. -/
def Command.ignoredZero (c : Command) : Bool :=
  if c.unit = 1#2 then
    if c.sub = 0#4 then
      aboveWord16 c.opa == 0 && aboveWord16 c.opb == 0 && c.opc == 0 && c.opd == 0
    else c.opb == 0 && c.opc == 0 && c.opd == 0
  else if c.unit = 2#2 then
    if c.sub = 0#4 then aboveByte c.opc == 0 && c.opd == 0
    else if c.sub = 1#4 then true
    else c.opd == 0
  else aboveByte c.opa == 0 && c.opc == 0 && c.opd == 0

/-- A message as an assembler writes it: a legal command word and 0 in every ignored bit (R73). The block
accepts every message (R67, R70); this is the form `encode` produces. -/
def Command.wellFormed (c : Command) : Bool := c.legal && c.ignoredZero

end Sys2Proof
end

