-- ==== Sys2Proof/Decode.lean ====
section
/-! DEFINITION. The decoder (R67), total on every message; the encoder, written from the field layout of R62 to
R66 and the operand table of R70; and the message whose bits a natural number holds. -/

namespace Sys2Proof

/-- The decoder of R67. It chooses the command from CMD alone and takes the operand bits R70 names; `none` is
R67's `Illegal`, which the block answers with ERR_ILLEGAL (R68). -/
def decode (c : Command) : Option Instr :=
  if c.rsvd ≠ 0 then none else
  match c.low with
  | 0x40#8 => some (.fwrDecAbcd (word16Of c.opa) (word16Of c.opb))
  | 0x41#8 => some (.fwrEncAbcd c.opa)
  | 0x50#8 => some (.fwrDecDcba (word16Of c.opa) (word16Of c.opb))
  | 0x51#8 => some (.fwrEncDcba c.opa)
  | 0x60#8 => some (.fwrDecBadc (word16Of c.opa) (word16Of c.opb))
  | 0x61#8 => some (.fwrEncBadc c.opa)
  | 0x70#8 => some (.fwrDecCdab (word16Of c.opa) (word16Of c.opb))
  | 0x71#8 => some (.fwrEncCdab c.opa)
  | 0x80#8 => some (.bpkUnpackByte c.opa c.opb (byteOf c.opc))
  | 0x81#8 => some (.bpkUnpackBytes c.opa c.opb c.opc c.opd)
  | 0x82#8 => some (.bpkPackByte c.opa c.opb c.opc)
  | 0xC0#8 => some (.rlrLookup (byteOf c.opa) c.opb)
  | _ => none

/-- A command word from its fields, RSVD = 0 (R62). -/
def cmdWord (unit ord : BitVec 2) (sub : BitVec 4) : Word32 :=
  (0#24 ++ unit ++ ord ++ sub : BitVec (24 + 2 + 2 + 4))

/-- An FWR decode message: UNIT = 01, DIR = 0 (R64). -/
def encodeFwrDec (ord : BitVec 2) (w0 w1 : Word16) : Command :=
  { cmd := cmdWord 0b01#2 ord 0b0000#4, opa := zext32 w0, opb := zext32 w1, opc := 0, opd := 0 }

/-- An FWR encode message: UNIT = 01, DIR = 1 (R64). -/
def encodeFwrEnc (ord : BitVec 2) (v : Word32) : Command :=
  { cmd := cmdWord 0b01#2 ord 0b0001#4, opa := v, opb := 0, opc := 0, opd := 0 }

/-- The message of a command, 0 in every operand bit it ignores (R62 to R66, R70, R73). -/
def encode : Instr → Command
  | .fwrDecAbcd w0 w1 => encodeFwrDec 0b00#2 w0 w1
  | .fwrDecDcba w0 w1 => encodeFwrDec 0b01#2 w0 w1
  | .fwrDecBadc w0 w1 => encodeFwrDec 0b10#2 w0 w1
  | .fwrDecCdab w0 w1 => encodeFwrDec 0b11#2 w0 w1
  | .fwrEncAbcd v => encodeFwrEnc 0b00#2 v
  | .fwrEncDcba v => encodeFwrEnc 0b01#2 v
  | .fwrEncBadc v => encodeFwrEnc 0b10#2 v
  | .fwrEncCdab v => encodeFwrEnc 0b11#2 v
  | .bpkUnpackByte dest idx value =>
    { cmd := cmdWord 0b10#2 0b00#2 0b0000#4, opa := dest, opb := idx, opc := zext32 value, opd := 0 }
  | .bpkUnpackBytes dest idx nbBits src =>
    { cmd := cmdWord 0b10#2 0b00#2 0b0001#4, opa := dest, opb := idx, opc := nbBits, opd := src }
  | .bpkPackByte src idx nbBits =>
    { cmd := cmdWord 0b10#2 0b00#2 0b0010#4, opa := src, opb := idx, opc := nbBits, opd := 0 }
  | .rlrLookup fc payload =>
    { cmd := cmdWord 0b11#2 0b00#2 0b0000#4, opa := zext32 fc, opb := payload, opc := 0, opd := 0 }

/-- The five words of a message in the order CMD, OPA, OPB, OPC, OPD (R60). -/
def Command.words (c : Command) : List Word32 := [c.cmd, c.opa, c.opb, c.opc, c.opd]

/-- The message whose first `nbits` bits are the low bits of `w`, bit 0 being bit 0 of CMD and each later word's
bits counting on from it; every bit above is 0. The port takes words, not bytes, so no byte order arises (R60). -/
def Command.ofBits (nbits w : Nat) : Command :=
  let m := w % 2 ^ nbits
  { cmd := BitVec.ofNat 32 m
    opa := BitVec.ofNat 32 (m / 2 ^ 32)
    opb := BitVec.ofNat 32 (m / 2 ^ 64)
    opc := BitVec.ofNat 32 (m / 2 ^ 96)
    opd := BitVec.ofNat 32 (m / 2 ^ 128) }

/-- The instruction the decoder reads from a message whose bits are `w`, numbered as the opcode table does. -/
def decodeTableWord (nbits w : Nat) : Option Instr := decode (Command.ofBits nbits w)

end Sys2Proof
end

