-- ==== Sys2Proof/Config.lean ====
section
/-! DEFINITION. The free values of the model: constants without a body, applied to the draw counter of State, so
that nothing in Lean can say which value a draw gives (R152, R171; log entry 5). -/

namespace Sys2Proof.Config

/-- The value draw `n` gives to a byte the spec leaves unconstrained: a byte of the write set of a command that
raised a contract fault (R152). -/
opaque freeByte : Nat → Byte

/-- Draw `n` of the choice between the new value (`true`) and the old one, for a byte of the write set of a
command abandoned by reset (R171). -/
opaque freeChoice : Nat → Bool

end Sys2Proof.Config
end

