-- ==== Sys2Proof/Machine/Memory.lean ====
section
/-! DEFINITION. Caller memory (R26): the bytes that differ from what an unlisted byte reads as, in one canonical
form, and the byte read and byte write that are the block's only accesses (R41, R46). -/

namespace Sys2Proof.Machine

/-- Caller memory: (address, byte) pairs (R26). Its canonical form is `Memory.wf`. -/
abbrev Memory := List Host.Cell

/-- What an address that is not listed reads as. DESIGN CHOICE (log entry 1): the spec leaves the contents of
caller memory to the host; 95_test_vectors.md takes 0 for a byte a start state does not list. -/
def unlisted : Byte := 0

/-- The canonical form: addresses strictly rising and inside the space (R26), no entry equal to `unlisted`. -/
def Memory.wf : Memory → Bool
  | [] => true
  | (a, v) :: rest => decide (a < addrSpace) && v != unlisted && rest.all (fun c => decide (a < c.1)) && Memory.wf rest

/-- `MemRead(a, 1)` (R13, R41). -/
def Memory.read : Memory → Nat → Byte
  | [], _ => unlisted
  | (b, v) :: rest, a => if b = a then v else Memory.read rest a

/-- `MemWrite(a, 1, v)` (R13, R41), keeping the canonical form: writing `unlisted` removes the entry. -/
def Memory.write : Memory → Nat → Byte → Memory
  | [], a, v => if v = unlisted then [] else [(a, v)]
  | (b, w) :: rest, a, v =>
    if a < b then
      if v = unlisted then (b, w) :: rest else (a, v) :: (b, w) :: rest
    else if a = b then
      if v = unlisted then rest else (a, v) :: rest
    else (b, w) :: Memory.write rest a v

/-- Every byte of a list of cells written, in the list's order. -/
def Memory.writeAll : Memory → List Host.Cell → Memory
  | m, [] => m
  | m, c :: cs => Memory.writeAll (m.write c.1 c.2) cs

end Sys2Proof.Machine
end

