-- ==== Sys2Proof/Machine/Rom.lean ====
section
/-! DEFINITION. The length ROM (R27, R80) and the length each class gives (R81). -/

namespace Sys2Proof.Machine

/-- The length ROM: one class for each of the 256 function codes (R27). The rows listed are the codes R80's
table names; every code not listed holds CONST5. -/
abbrev LengthRom := List (Byte × LengthClass)

/-- `ROM[fc]` (R80, R85): total on all 256 codes. -/
def LengthRom.entry : LengthRom → Byte → LengthClass
  | [], _ => .const5
  | (code, cls) :: rest, fc => if code = fc then cls else LengthRom.entry rest fc

/-- FC_MAP: the default contents of the ROM, row for row the table of R80 (D14; log entry 3: ten of the twelve
numbers are general knowledge in the spec itself). -/
def fcMap : LengthRom :=
  [ (0x01#8, .bits), (0x02#8, .bits), (0x03#8, .regs), (0x04#8, .regs)
  , (0x05#8, .const5), (0x06#8, .const5), (0x07#8, .const3), (0x0F#8, .const5)
  , (0x10#8, .const5), (0x11#8, .unknown), (0x16#8, .const7), (0x17#8, .regs) ]

end Sys2Proof.Machine

namespace Sys2Proof

/-- The classes whose length needs the quantity, and so reads the payload (R87). -/
def LengthClass.readsQuantity : LengthClass → Bool
  | .bits => true
  | .regs => true
  | .const3 => false
  | .unknown => false
  | .const7 => false
  | .const5 => false

/-- The length a class gives for the quantity `nb`, exact on naturals (R81, R83). -/
def LengthClass.length (nb : Nat) : LengthClass → Length
  | .bits => .known (2 + Machine.ceilDiv nb 8)
  | .regs => .known (2 + 2 * nb)
  | .const3 => .known 3
  | .unknown => .unknown
  | .const7 => .known 7
  | .const5 => .known 5

end Sys2Proof
end

