-- ==== Sys2Proof/Machine/State.lean ====
section
/-! DEFINITION. The state of the block and of the host beside it: caller memory, the command port with BUSY and
the command in flight, the response message, the length ROM, the launch parameters, the record of contract faults
and responses, and the host's moves. INVENTORY.md lists every field with its rule. -/

namespace Sys2Proof.Machine

/-- The two kinds of contract fault (R152). -/
inductive ContractKind where
  | access
  | overlap
deriving DecidableEq, Repr

/-- `ContractFault(kind, addr)`: the caller broke a precondition the hardware does not check (R13, R152). -/
structure ContractFault where
  kind : ContractKind
  addr : Nat
deriving DecidableEq, Repr

/-- A response message: STATUS, RES0 and RES1 (R61). -/
structure Response where
  status : Byte
  res0 : Word32
  res1 : Word32
deriving DecidableEq, Repr

/-- A run of caller-memory addresses: `base` to `base + size - 1`. -/
structure Region where
  base : Nat
  size : Nat
deriving DecidableEq, Repr

/-- The command port. BUSY (R29) is 0 exactly when it is `ready`. -/
inductive Port where
  /-- BUSY = 0: no command in flight, the port takes a command (R175). -/
  | ready
  /-- BUSY = 1: the command was accepted and has no response yet (R29). -/
  | busy (c : Command)
  /-- BUSY = 1, and no response is coming: the command raised this contract fault (R152). -/
  | lost (f : ContractFault)
deriving DecidableEq, Repr

/-- What the host can do to the block and to caller memory (R174). A list of moves is the input of a run; the
moves are taken in order. -/
inductive HostMove where
  /-- Present a command; it waits while BUSY = 1 and is not lost (R175). -/
  | present (c : Command)
  /-- Wait for the response of the command in flight (R75). -/
  | awaitResponse
  /-- Look at the fields of the response message (R24). -/
  | readResponse
  /-- Write a byte of caller memory, completed and visible to the block's port (R49, R181). -/
  | write (a : Word32) (v : Byte)
  /-- Read a byte of caller memory (R49, R174). -/
  | read (a : Word32)
  /-- Reset the block, at any time (R170, R171). -/
  | reset
deriving DecidableEq, Repr

/-- Why the machine stops with a fault. -/
inductive Fault where
  /-- Raised by the step that finds the command in flight lost to a contract fault and no reset in its way: the
  spec gives that command no result and no response (R152, 93 U1, U2, S2, S6). Safe: the hardware does something,
  the model goes no further. -/
  | contract (f : ContractFault)
  /-- Raised by the host's move `readResponse` when no response message exists: before the first response after
  reset, and after the next command is accepted (R24, 93 S7). Safe: no value is made up. -/
  | noResponse
deriving DecidableEq, Repr

/-- Why a step has no meaning. -/
inductive Refusal where
  /-- An instruction that has no meaning yet. No arm of `exec` answers it. Safe. -/
  | notModelled (mnemonic : String)
  /-- Raised by a host move on a byte of the read or write set of the command in flight that R58 and R176 forbid:
  "The model gives the host no move on those bytes during a command" (93 U5). Safe: the run stops. -/
  | hostBreach (addr : Nat)
deriving DecidableEq, Repr

/-- The whole state (10_state.md; INVENTORY.md). -/
structure State where
  /-- Caller memory (R26). -/
  mem : Memory
  /-- BUSY and the command in flight (R29). -/
  port : Port
  /-- The response message, from its delivery until the next acceptance or reset (R24; log entry 7). -/
  response : Option Response
  /-- The responses delivered so far, oldest first: the host's observation (R180), not state of the block. -/
  observed : List Response
  /-- The contract faults of the run, oldest first: kept for the rest of the run (R152). -/
  contractFaults : List ContractFault
  /-- Whether a reset has landed in this run: R180 says nothing about a run with a reset part-way, so its end and
  success look at this (log entry 14). The run's record, not state of the block. -/
  resetLanded : Bool
  /-- The length ROM (R27). -/
  rom : LengthRom
  /-- The launch parameter `ReadOK`: the buffers handed over for reading (R10). -/
  readOK : List Region
  /-- The launch parameter `WriteOK`: the buffers handed over for writing (R10). -/
  writeOK : List Region
  /-- What the host does next (R75, R174): the model's own holder of its input. -/
  host : List HostMove
  /-- How many free values have been drawn: the model's own field (log entry 5). -/
  draws : Nat
deriving DecidableEq, Repr

/-- Every byte of the address space. -/
def wholeSpace : List Region := [{ base := 0, size := addrSpace }]

/-- The block right after reset (R31, R170): BUSY = 0, no response field exists, the ROM holds R80's contents.
Caller memory, the admitted bytes and the host's moves are not the block's: nothing listed in memory (log entry 1),
every byte admitted (log entry 2), no move. The record of a run starts here, with no reset landed since. -/
def State.reset : State where
  mem := []
  port := .ready
  response := none
  observed := []
  contractFaults := []
  resetLanded := false
  rom := fcMap
  readOK := wholeSpace
  writeOK := wholeSpace
  host := []
  draws := 0

end Sys2Proof.Machine
end

