-- ==== Sys2Proof/Machine/Flags.lean ====
section
/-! DEFINITION. The block has no flags (R22). What stands in their place are the two indicators of a response:
the STATUS code (R150, R151) and the Unknown tag in RES1 (R84). -/

namespace Sys2Proof.Machine

/-- STATUS OK (R150). -/
abbrev statusOk : Byte := 0x00

/-- STATUS ERR_ILLEGAL (R150). -/
abbrev statusIllegal : Byte := 0x01

/-- STATUS ERR_NB_BITS (R150). -/
abbrev statusNbBits : Byte := 0x02

/-- The STATUS of BPK.PACK_BYTE: ERR_NB_BITS exactly when `nb_bits > 8` (R104, R151). -/
def packStatus (nbBits : Word32) : Byte := if 8 < nbBits.toNat then statusNbBits else statusOk

/-- The response that carries a length: the number in RES0, or the Unknown tag in RES1 (R84). -/
def lengthResponse : Length → Response
  | .known n => { status := statusOk, res0 := BitVec.ofNat 32 n, res1 := 0 }
  | .unknown => { status := statusOk, res0 := 0, res1 := 1 }

/-- A successful response (R71). -/
def okResponse (r0 r1 : Word32) : Response := { status := statusOk, res0 := r0, res1 := r1 }

end Sys2Proof.Machine
end

