-- ==== Sys2Proof/Machine/Ops.lean ====
section
/-! DEFINITION. The operations every command shares: admission (R44), the overlap rule (R57), the response (R13),
the contract fault (R152, in place of an exception entry: the block has no trap and no return from one, R157,
R158), and the one way a command ends. -/

namespace Sys2Proof.Machine

/-- What a command does with memory and answers: its read set, the bytes of its write set with the values it
writes, and its response. The meaning of each command is its plan (R47: all of it happens in one step). -/
structure Plan where
  reads : List Nat
  writes : List Host.Cell
  response : Response
deriving DecidableEq, Repr

/-- The write set of a command (R59). -/
def Plan.writeSet (p : Plan) : List Nat := p.writes.map Prod.fst

/-- Whether the region holds the address. -/
def Region.holds (r : Region) (a : Nat) : Bool := decide (r.base ≤ a) && decide (a < r.base + r.size)

/-- Whether a launch parameter admits an address: false for every `a >= 2^32` (R10). -/
def admits (regions : List Region) (a : Nat) : Bool := decide (a < addrSpace) && regions.any (·.holds a)

/-- `ReadOK(a)` (R10). -/
def State.readable (s : State) (a : Nat) : Bool := admits s.readOK a

/-- `WriteOK(a)` (R10). -/
def State.writable (s : State) (a : Nat) : Bool := admits s.writeOK a

/-- BUSY (R29). -/
def State.busy (s : State) : Bool := s.port != .ready

/-- The lowest address two sets have in common (R57). -/
def lowestCommon (xs ys : List Nat) : Option Nat := (xs.filter (ys.contains ·)).min?

/-- `admit_read` over a command's read set, in order: the first byte not admitted (R44). -/
def admitReads (s : State) (as : List Nat) : Option ContractFault :=
  (as.find? (fun a => !s.readable a)).map (ContractFault.mk .access)

/-- `admit_write` over a command's write set, in order (R44). -/
def admitWrites (s : State) (as : List Nat) : Option ContractFault :=
  (as.find? (fun a => !s.writable a)).map (ContractFault.mk .access)

/-- The overlap of a command's write set with its read set (R57). -/
def checkOverlap (reads writes : List Nat) : Option ContractFault :=
  (lowestCommon reads writes).map (ContractFault.mk .overlap)

/-- The contract fault of a command, if any: reads are admitted first, then writes, then the overlap is checked
(R102, R155). -/
def Plan.contractFault (p : Plan) (s : State) : Option ContractFault :=
  (admitReads s p.reads).or ((admitWrites s p.writeSet).or (checkOverlap p.reads p.writeSet))

/-- `respond`: the response is delivered and BUSY returns to 0 (R13, R29, R175). -/
def State.deliver (s : State) (r : Response) : State :=
  { s with port := .ready, response := some r, observed := s.observed ++ [r] }

/-- A free byte for every address of caller memory in a list, the draws numbered from `n`. -/
def freeCells : Nat → List Nat → List Host.Cell
  | _, [] => []
  | n, a :: as =>
    if a < addrSpace then (a, Config.freeByte n) :: freeCells (n + 1) as else freeCells (n + 1) as

/-- `raise ContractFault`: the fault is recorded and kept, no response is delivered, and every byte of the write
set holds an unconstrained value (R13, R152; log entry 4). -/
def State.raise (s : State) (f : ContractFault) (writeSet : List Nat) : State :=
  { s with
    mem := s.mem.writeAll (freeCells s.draws writeSet)
    port := .lost f
    response := none
    contractFaults := s.contractFaults ++ [f]
    draws := s.draws + writeSet.length }

/-- The one step of an accepted command: the contract is checked, then every byte is written and the response is
delivered (R47, R49, R155). -/
def complete (p : Plan) (s : State) : State :=
  match p.contractFault s with
  | some f => s.raise f p.writeSet
  | none => { s with mem := s.mem.writeAll p.writes }.deliver p.response

/-- Each cell keeps its old value or takes its new one, the choices numbered from `n` (R171). -/
def abandonCells (m : Memory) : Nat → List Host.Cell → List Host.Cell
  | _, [] => []
  | n, (a, v) :: cs => (a, if Config.freeChoice n then v else m.read a) :: abandonCells m (n + 1) cs

/-- A command abandoned by reset: no response, and every byte of its write set old or new (R171). A command whose
contract is broken leaves what its contract fault leaves (log entry 9). -/
def abandon (p : Plan) (s : State) : State :=
  match p.contractFault s with
  | some f => s.raise f p.writeSet
  | none => { s with mem := s.mem.writeAll (abandonCells s.mem s.draws p.writes), draws := s.draws + p.writes.length }

/-- Reading a field of the response message: a fault when no message exists, never a zero (R24). -/
def State.lastResponse (s : State) : Except Fault Response :=
  match s.response with
  | some r => .ok r
  | none => .error .noResponse

end Sys2Proof.Machine
end

