-- ==== Sys2Proof/Machine/Bpk.lean ====
section
/-! DEFINITION. The BitPacker, BPK: the three commands of 42_bpk.md (R101 to R103). -/

namespace Sys2Proof.Machine

/-- The eight entries BPK.UNPACK_BYTE writes, bit 0 first (R101). -/
def unpackByteCells (dest idx : Word32) (value : Byte) : List Host.Cell :=
  (List.range 8).map fun k => (entryAddr dest idx k, entryOfBit (value.getLsbD k))

/-- The packed bytes BPK.UNPACK_BYTES reads (R59, R102). -/
def packedAddrs (src nbBits : Word32) : List Nat :=
  (List.range (ceilDiv nbBits.toNat 8)).map (packedAddr src)

/-- The entries BPK.UNPACK_BYTES writes: entry `i` is bit `i % 8` of packed byte `i / 8` (R102). -/
def unpackBytesCells (m : Memory) (dest idx nbBits src : Word32) : List Host.Cell :=
  (List.range nbBits.toNat).map fun i =>
    (entryAddr dest idx i, entryOfBit ((m.read (packedAddr src (i / 8))).getLsbD (i % 8)))

/-- The entries BPK.PACK_BYTE reads: at most eight (R103, R104). -/
def packAddrs (src idx nbBits : Word32) : List Nat :=
  (List.range (min nbBits.toNat 8)).map (entryAddr src idx)

/-- The byte BPK.PACK_BYTE packs: bit `k` is set exactly when entry `k` is nonzero (R103). -/
def packedByte (m : Memory) (src idx nbBits : Word32) : Byte :=
  packBits ((packAddrs src idx nbBits).map fun a => bitOfEntry (m.read a))

/-- The plan of BPK.UNPACK_BYTE (R101). -/
def planBpkUnpackByte (dest idx : Word32) (value : Byte) : Plan :=
  { reads := [], writes := unpackByteCells dest idx value, response := okResponse 0 0 }

/-- The plan of BPK.UNPACK_BYTES (R102). -/
def planBpkUnpackBytes (dest idx nbBits src : Word32) (s : State) : Plan :=
  { reads := packedAddrs src nbBits
    writes := unpackBytesCells s.mem dest idx nbBits src
    response := okResponse 0 0 }

/-- The plan of BPK.PACK_BYTE (R103, R104). -/
def planBpkPackByte (src idx nbBits : Word32) (s : State) : Plan :=
  { reads := packAddrs src idx nbBits
    writes := []
    response := { status := packStatus nbBits, res0 := zext32 (packedByte s.mem src idx nbBits), res1 := 0 } }

/-- BPK.UNPACK_BYTE (R101). -/
def execBpkUnpackByte (dest idx : Word32) (value : Byte) (s : State) : Host.Outcome State Fault Refusal :=
  .next (complete (planBpkUnpackByte dest idx value) s)

/-- BPK.UNPACK_BYTES (R102). -/
def execBpkUnpackBytes (dest idx nbBits src : Word32) (s : State) : Host.Outcome State Fault Refusal :=
  .next (complete (planBpkUnpackBytes dest idx nbBits src s) s)

/-- BPK.PACK_BYTE (R103). -/
def execBpkPackByte (src idx nbBits : Word32) (s : State) : Host.Outcome State Fault Refusal :=
  .next (complete (planBpkPackByte src idx nbBits s) s)

end Sys2Proof.Machine
end

