-- ==== Sys2Proof/Machine/Fwr.lean ====
section
/-! DEFINITION. The RegisterFloatCodec, FWR: the eight commands of 43_fwr.md (R124 to R131). Bytes are moved and
nothing is computed (R132); no memory is touched (R135). -/

namespace Sys2Proof.Machine

/-- The plan of a command that answers OK and touches no memory (R135). -/
def planAnswer (r0 r1 : Word32) : Plan := { reads := [], writes := [], response := okResponse r0 r1 }

/-- `V` under ABCD: A B from `w0`, C D from `w1` (R123, R124). -/
def decAbcd (w0 w1 : Word16) : Word32 := w0 ++ w1

/-- `V` under DCBA: all four bytes reversed (R125). -/
def decDcba (w0 w1 : Word16) : Word32 := loByte w1 ++ hiByte w1 ++ loByte w0 ++ hiByte w0

/-- `V` under BADC: the two bytes of each word swapped (R126). -/
def decBadc (w0 w1 : Word16) : Word32 := loByte w0 ++ hiByte w0 ++ loByte w1 ++ hiByte w1

/-- `V` under CDAB: the two words swapped (R127). -/
def decCdab (w0 w1 : Word16) : Word32 := w1 ++ w0

/-- `(w0, w1)` under ABCD (R123, R128). -/
def encAbcd (v : Word32) : Word16 × Word16 := (v.extractLsb' 16 16, v.extractLsb' 0 16)

/-- `(w0, w1)` under DCBA (R129). -/
def encDcba (v : Word32) : Word16 × Word16 := (byteK 0 v ++ byteK 1 v, byteK 2 v ++ byteK 3 v)

/-- `(w0, w1)` under BADC (R130). -/
def encBadc (v : Word32) : Word16 × Word16 := (byteK 2 v ++ byteK 3 v, byteK 0 v ++ byteK 1 v)

/-- `(w0, w1)` under CDAB (R131). -/
def encCdab (v : Word32) : Word16 × Word16 := (v.extractLsb' 0 16, v.extractLsb' 16 16)

/-- The plan of FWR.DEC.ABCD (R124). -/
def planFwrDecAbcd (w0 w1 : Word16) : Plan := planAnswer (decAbcd w0 w1) 0

/-- The plan of FWR.DEC.DCBA (R125). -/
def planFwrDecDcba (w0 w1 : Word16) : Plan := planAnswer (decDcba w0 w1) 0

/-- The plan of FWR.DEC.BADC (R126). -/
def planFwrDecBadc (w0 w1 : Word16) : Plan := planAnswer (decBadc w0 w1) 0

/-- The plan of FWR.DEC.CDAB (R127). -/
def planFwrDecCdab (w0 w1 : Word16) : Plan := planAnswer (decCdab w0 w1) 0

/-- The plan of FWR.ENC.ABCD (R128). -/
def planFwrEncAbcd (v : Word32) : Plan := planAnswer (zext32 (encAbcd v).1) (zext32 (encAbcd v).2)

/-- The plan of FWR.ENC.DCBA (R129). -/
def planFwrEncDcba (v : Word32) : Plan := planAnswer (zext32 (encDcba v).1) (zext32 (encDcba v).2)

/-- The plan of FWR.ENC.BADC (R130). -/
def planFwrEncBadc (v : Word32) : Plan := planAnswer (zext32 (encBadc v).1) (zext32 (encBadc v).2)

/-- The plan of FWR.ENC.CDAB (R131). -/
def planFwrEncCdab (v : Word32) : Plan := planAnswer (zext32 (encCdab v).1) (zext32 (encCdab v).2)

/-- FWR.DEC.ABCD (R124). -/
def execFwrDecAbcd (w0 w1 : Word16) (s : State) : Host.Outcome State Fault Refusal :=
  .next (complete (planFwrDecAbcd w0 w1) s)

/-- FWR.DEC.DCBA (R125). -/
def execFwrDecDcba (w0 w1 : Word16) (s : State) : Host.Outcome State Fault Refusal :=
  .next (complete (planFwrDecDcba w0 w1) s)

/-- FWR.DEC.BADC (R126). -/
def execFwrDecBadc (w0 w1 : Word16) (s : State) : Host.Outcome State Fault Refusal :=
  .next (complete (planFwrDecBadc w0 w1) s)

/-- FWR.DEC.CDAB (R127). -/
def execFwrDecCdab (w0 w1 : Word16) (s : State) : Host.Outcome State Fault Refusal :=
  .next (complete (planFwrDecCdab w0 w1) s)

/-- FWR.ENC.ABCD (R128). -/
def execFwrEncAbcd (v : Word32) (s : State) : Host.Outcome State Fault Refusal :=
  .next (complete (planFwrEncAbcd v) s)

/-- FWR.ENC.DCBA (R129). -/
def execFwrEncDcba (v : Word32) (s : State) : Host.Outcome State Fault Refusal :=
  .next (complete (planFwrEncDcba v) s)

/-- FWR.ENC.BADC (R130). -/
def execFwrEncBadc (v : Word32) (s : State) : Host.Outcome State Fault Refusal :=
  .next (complete (planFwrEncBadc v) s)

/-- FWR.ENC.CDAB (R131). -/
def execFwrEncCdab (v : Word32) (s : State) : Host.Outcome State Fault Refusal :=
  .next (complete (planFwrEncCdab v) s)

end Sys2Proof.Machine
end

