-- ==== Sys2Proof/Machine/Rlr.lean ====
section
/-! DEFINITION. The ResponseLengthROM, RLR: its one command (R85). -/

namespace Sys2Proof.Machine

/-- The bytes RLR.LOOKUP reads: the two quantity bytes, and only for a class that needs them (R59, R87). -/
def quantityAddrs (cls : LengthClass) (payload : Word32) : List Nat :=
  if cls.readsQuantity then [payloadAddr payload 2, payloadAddr payload 3] else []

/-- The quantity `nb` of the payload, big-endian at offsets 2 and 3 (R82). -/
def payloadQuantity (m : Memory) (payload : Word32) : Nat :=
  (quantity (m.read (payloadAddr payload 2)) (m.read (payloadAddr payload 3))).toNat

/-- The plan of RLR.LOOKUP (R85). The lengths of the classes that make no access do not depend on `nb`. -/
def planRlrLookup (fc : Byte) (payload : Word32) (s : State) : Plan :=
  { reads := quantityAddrs (s.rom.entry fc) payload
    writes := []
    response := lengthResponse ((s.rom.entry fc).length (payloadQuantity s.mem payload)) }

/-- RLR.LOOKUP (R85). -/
def execRlrLookup (fc : Byte) (payload : Word32) (s : State) : Host.Outcome State Fault Refusal :=
  .next (complete (planRlrLookup fc payload s) s)

end Sys2Proof.Machine
end

