-- ==== Sys2Proof/Machine/Dispatch.lean ====
section
/-! DEFINITION. The dispatch: one arm per command (R67). -/

namespace Sys2Proof.Machine

def exec (i : Instr) (s : State) : Host.Outcome State Fault Refusal :=
  match i with
  | .fwrDecAbcd w0 w1 => Sys2Proof.Machine.execFwrDecAbcd w0 w1 s
  | .fwrDecDcba w0 w1 => Sys2Proof.Machine.execFwrDecDcba w0 w1 s
  | .fwrDecBadc w0 w1 => Sys2Proof.Machine.execFwrDecBadc w0 w1 s
  | .fwrDecCdab w0 w1 => Sys2Proof.Machine.execFwrDecCdab w0 w1 s
  | .fwrEncAbcd v => Sys2Proof.Machine.execFwrEncAbcd v s
  | .fwrEncDcba v => Sys2Proof.Machine.execFwrEncDcba v s
  | .fwrEncBadc v => Sys2Proof.Machine.execFwrEncBadc v s
  | .fwrEncCdab v => Sys2Proof.Machine.execFwrEncCdab v s
  | .bpkUnpackByte dest idx value => Sys2Proof.Machine.execBpkUnpackByte dest idx value s
  | .bpkUnpackBytes dest idx nbBits src => Sys2Proof.Machine.execBpkUnpackBytes dest idx nbBits src s
  | .bpkPackByte src idx nbBits => Sys2Proof.Machine.execBpkPackByte src idx nbBits s
  | .rlrLookup fc payload => Sys2Proof.Machine.execRlrLookup fc payload s

end Sys2Proof.Machine
end

