-- ==== Sys2Proof/Machine/Run.lean ====
section
/-! DEFINITION. What a step is made of: the plan of any message, accepting a command (R175), running the one in
flight (R47, R153), reset (R170, R171), and the host's moves with the duties R58 and R176 put on them. -/

namespace Sys2Proof.Machine

/-- The plan of each command: its read set, write set and response (R59, R71). -/
def planOf (i : Instr) (s : State) : Plan :=
  match i with
  | .fwrDecAbcd w0 w1 => planFwrDecAbcd w0 w1
  | .fwrDecDcba w0 w1 => planFwrDecDcba w0 w1
  | .fwrDecBadc w0 w1 => planFwrDecBadc w0 w1
  | .fwrDecCdab w0 w1 => planFwrDecCdab w0 w1
  | .fwrEncAbcd v => planFwrEncAbcd v
  | .fwrEncDcba v => planFwrEncDcba v
  | .fwrEncBadc v => planFwrEncBadc v
  | .fwrEncCdab v => planFwrEncCdab v
  | .bpkUnpackByte dest idx value => planBpkUnpackByte dest idx value
  | .bpkUnpackBytes dest idx nbBits src => planBpkUnpackBytes dest idx nbBits src s
  | .bpkPackByte src idx nbBits => planBpkPackByte src idx nbBits s
  | .rlrLookup fc payload => planRlrLookup fc payload s

/-- The plan of an illegal command: no access, and ERR_ILLEGAL (R68, R153). -/
def illegalPlan : Plan :=
  { reads := [], writes := [], response := { status := statusIllegal, res0 := 0, res1 := 0 } }

/-- The plan of any message (R67: every CMD value has a meaning). -/
def planCommand (c : Command) (s : State) : Plan :=
  match decode c with
  | some i => planOf i s
  | none => illegalPlan

/-- An illegal command: accepted like any other and answered with ERR_ILLEGAL (R153). -/
def execIllegal (s : State) : Host.Outcome State Fault Refusal := .next (complete illegalPlan s)

/-- The command in flight takes its one step (R47). -/
def runCommand (c : Command) (s : State) : Host.Outcome State Fault Refusal :=
  match decode c with
  | some i => exec i s
  | none => execIllegal s

/-- The port takes a command: BUSY becomes 1, and the last response no longer exists (R24, R29, R175). -/
def State.accept (s : State) (c : Command) : State := { s with port := .busy c, response := none }

/-- Reset (R31, R170, R171): BUSY becomes 0, a command in flight is abandoned, no response exists. The ROM and,
with no command in flight, caller memory are unchanged. A command already lost to a contract fault has left its
free values. That a reset has landed stays on the run's record (log entry 14). -/
def State.takeReset (s : State) : State :=
  match s.port with
  | .ready => { s with response := none, resetLanded := true }
  | .busy c => { abandon (planCommand c s) s with port := .ready, response := none, resetLanded := true }
  | .lost _ => { s with port := .ready, response := none, resetLanded := true }

/-- The block goes on by itself: the command in flight runs; with none in flight nothing happens; a command lost
to a contract fault has no specified result (R152, R179). -/
def State.advance (s : State) : Host.Outcome State Fault Refusal :=
  match s.port with
  | .ready => .next s
  | .busy c => runCommand c s
  | .lost f => .fault (.contract f)

/-- A host write of one byte (R174). During a command it may not touch the read or write set (R58, R176). -/
def State.hostWrite (s : State) (a : Nat) (v : Byte) (rest : List HostMove) : Host.Outcome State Fault Refusal :=
  match s.port with
  | .ready => .next { s with mem := s.mem.write a v, host := rest }
  | .busy c =>
    if a ∈ (planCommand c s).reads ∨ a ∈ (planCommand c s).writeSet then .refused (.hostBreach a)
    else .next { s with mem := s.mem.write a v, host := rest }
  | .lost f => .fault (.contract f)

/-- A host read of one byte (R174). During a command it may not touch the write set (R58, R176). -/
def State.hostRead (s : State) (a : Nat) (rest : List HostMove) : Host.Outcome State Fault Refusal :=
  match s.port with
  | .ready => .next { s with host := rest }
  | .busy c => if a ∈ (planCommand c s).writeSet then .refused (.hostBreach a) else .next { s with host := rest }
  | .lost f => .fault (.contract f)

/-- The host looks at the response message (R24). -/
def State.hostReadResponse (s : State) (rest : List HostMove) : Host.Outcome State Fault Refusal :=
  match s.lastResponse with
  | .ok _ => .next { s with host := rest }
  | .error e => .fault e

/-- The port side of `present`: taken when BUSY = 0; while BUSY = 1 it waits and the block goes on (R166, R175). -/
def State.hostPresent (s : State) (c : Command) (rest : List HostMove) : Host.Outcome State Fault Refusal :=
  match s.port with
  | .ready => .next ({ s with host := rest }.accept c)
  | .busy _ => s.advance
  | .lost _ => s.advance

/-- The host waits while a command is in flight (R75). -/
def State.hostAwait (s : State) (rest : List HostMove) : Host.Outcome State Fault Refusal :=
  match s.port with
  | .ready => .next { s with host := rest }
  | .busy _ => s.advance
  | .lost _ => s.advance

/-- One step: the host's next move lands, or the block goes on. A reset lands in any state of the port (R174). -/
def State.stepOnce (s : State) : Host.Outcome State Fault Refusal :=
  match s.host with
  | [] => s.advance
  | .present c :: rest => s.hostPresent c rest
  | .awaitResponse :: rest => s.hostAwait rest
  | .readResponse :: rest => s.hostReadResponse rest
  | .write a v :: rest => s.hostWrite a.toNat v rest
  | .read a :: rest => s.hostRead a.toNat rest
  | .reset :: rest => .next { s with host := rest }.takeReset

/-- The command is in flight and the host waits for its response, so that the next step is the command's. -/
def State.placeInFlight (s : State) (c : Command) : State :=
  { s with port := .busy c, host := .awaitResponse :: s.host }

end Sys2Proof.Machine
end

