-- ==== Sys2Proof/Machine/Step.lean ====
section
/-! DEFINITION. The step, and the state in which the next step runs a given instruction. -/

namespace Sys2Proof.Machine

/-- One step of the block and the host beside it (R47, R174, R175). -/
def step (s : State) : Host.Outcome State Fault Refusal := s.stepOnce

/-- The state whose next step runs the command with these bits, numbered as the opcode table numbers them: the
block fetches nothing (R53), so the message is placed where an accepted command stands (R29; log entry 6). -/
def State.withFetchWord (s : State) (nbits w : Nat) : State := s.placeInFlight (Command.ofBits nbits w)

end Sys2Proof.Machine
end

