-- ==== Sys2Proof/Machine/Assembler.lean ====
section
/-! DEFINITION. The assembler syntax of R73, the pseudo-instruction of R74 and the listing form of R75, on lists of
characters. The block never sees this text: it is how the spec writes programs. -/

namespace Sys2Proof.Machine

/-- Space, tab and carriage return separate words. DESIGN CHOICE (log entry 10): R73 names no blank characters. -/
def isBlank (c : Char) : Bool := c == ' ' || c == '\t' || c == '\r'

/-- Blanks removed from both ends. -/
def trimBlanks (cs : List Char) : List Char := ((cs.dropWhile isBlank).reverse.dropWhile isBlank).reverse

/-- The text cut at its commas (R73). -/
def splitCommas : List Char → List (List Char)
  | [] => [[]]
  | c :: cs =>
    match splitCommas cs with
    | [] => [[c]]
    | w :: ws => if c = ',' then [] :: w :: ws else (c :: w) :: ws

/-- The value of a digit in the given base, 10 or 16. DESIGN CHOICE (log entry 10): a hexadecimal digit is a letter of
either case. -/
def digitValue (base : Nat) (c : Char) : Option Nat :=
  let n := c.toNat
  let v := if 48 ≤ n && n ≤ 57 then some (n - 48)
    else if 97 ≤ n && n ≤ 102 then some (n - 87)
    else if 65 ≤ n && n ≤ 70 then some (n - 55)
    else none
  v.filter (· < base)

/-- The number a nonempty run of digits writes. -/
def digitsValue (base : Nat) : Nat → List Char → Option Nat
  | acc, [] => some acc
  | acc, c :: cs => (digitValue base c).bind fun d => digitsValue base (acc * base + d) cs

/-- An operand: decimal, or hexadecimal with the prefix 0x (R73). -/
def parseNumber : List Char → Option Nat
  | [] => none
  | '0' :: 'x' :: c :: cs => digitsValue 16 0 (c :: cs)
  | c :: cs => digitsValue 10 0 (c :: cs)

/-- Every element parsed, or nothing. -/
def parseAll : List (List Char) → Option (List Nat)
  | [] => some []
  | w :: ws => (parseNumber (trimBlanks w)).bind fun n => (parseAll ws).map (n :: ·)

/-- A value that fits its field; the assembler refuses one that does not (R73). -/
def fits (width n : Nat) : Option (BitVec width) := if n < 2 ^ width then some (BitVec.ofNat width n) else none

/-- FWR.DEC operands `w0, w1` (R73). -/
def assembleDec (f : Word16 → Word16 → Instr) : List Nat → Option Instr
  | [w0, w1] => (fits 16 w0).bind fun w0 => (fits 16 w1).map fun w1 => f w0 w1
  | _ => none

/-- The FWR.ENC operand `V` (R73). -/
def assembleEnc (f : Word32 → Instr) : List Nat → Option Instr
  | [v] => (fits 32 v).map f
  | _ => none

/-- `dest, idx, value` (R73). -/
def assembleUnpackByte : List Nat → Option Instr
  | [dest, idx, value] =>
    (fits 32 dest).bind fun dest => (fits 32 idx).bind fun idx =>
      (fits 8 value).map fun value => .bpkUnpackByte dest idx value
  | _ => none

/-- `dest, idx, nb_bits, src` (R73). -/
def assembleUnpackBytes : List Nat → Option Instr
  | [dest, idx, nb, src] =>
    (fits 32 dest).bind fun dest => (fits 32 idx).bind fun idx =>
      (fits 32 nb).bind fun nb => (fits 32 src).map fun src => .bpkUnpackBytes dest idx nb src
  | _ => none

/-- `src, idx, nb_bits` (R73). -/
def assemblePackByte : List Nat → Option Instr
  | [src, idx, nb] =>
    (fits 32 src).bind fun src => (fits 32 idx).bind fun idx =>
      (fits 32 nb).map fun nb => .bpkPackByte src idx nb
  | _ => none

/-- The pseudo-instruction `BPK.PACK8 src, idx` is `BPK.PACK_BYTE src, idx, 8` (R74). -/
def assemblePack8 : List Nat → Option Instr
  | [src, idx] => assemblePackByte [src, idx, 8]
  | _ => none

/-- `fc, payload` (R73). -/
def assembleLookup : List Nat → Option Instr
  | [fc, payload] => (fits 8 fc).bind fun fc => (fits 32 payload).map fun payload => .rlrLookup fc payload
  | _ => none

/-- The command a mnemonic in upper case and its operands name; nothing for an unknown mnemonic or a wrong operand
count (R73, R74). -/
def assembleWords (mnemonic : List Char) (operands : List Nat) : Option Instr :=
  if mnemonic = "FWR.DEC.ABCD".toList then assembleDec .fwrDecAbcd operands
  else if mnemonic = "FWR.DEC.DCBA".toList then assembleDec .fwrDecDcba operands
  else if mnemonic = "FWR.DEC.BADC".toList then assembleDec .fwrDecBadc operands
  else if mnemonic = "FWR.DEC.CDAB".toList then assembleDec .fwrDecCdab operands
  else if mnemonic = "FWR.ENC.ABCD".toList then assembleEnc .fwrEncAbcd operands
  else if mnemonic = "FWR.ENC.DCBA".toList then assembleEnc .fwrEncDcba operands
  else if mnemonic = "FWR.ENC.BADC".toList then assembleEnc .fwrEncBadc operands
  else if mnemonic = "FWR.ENC.CDAB".toList then assembleEnc .fwrEncCdab operands
  else if mnemonic = "BPK.UNPACK_BYTE".toList then assembleUnpackByte operands
  else if mnemonic = "BPK.UNPACK_BYTES".toList then assembleUnpackBytes operands
  else if mnemonic = "BPK.PACK_BYTE".toList then assemblePackByte operands
  else if mnemonic = "BPK.PACK8".toList then assemblePack8 operands
  else if mnemonic = "RLR.LOOKUP".toList then assembleLookup operands
  else none

/-- The instruction a line of assembly writes: a mnemonic in any case, then its operands separated by commas; a
semicolon starts a comment (R73). DESIGN CHOICE (log entry 15): a line with no command on it, blank or comment alone,
writes no instruction, the same answer as a refused line; R73 does not say whether an assembler refuses it. -/
def parseLine (line : List Char) : Option Instr :=
  let text := trimBlanks (line.takeWhile (· ≠ ';'))
  let mnemonic := text.takeWhile (!isBlank ·)
  let rest := text.dropWhile (!isBlank ·)
  (parseAll (splitCommas rest)).bind (assembleWords (mnemonic.map Char.toUpper))

/-- The message a line of assembly stands for, 0 in every word the command ignores (R73). -/
def assemble (line : List Char) : Option Command := (parseLine line).map encode

/-- The digit of a value below 16, in upper case. -/
def hexDigit (n : Nat) : Char := if n < 10 then Char.ofNat (48 + n) else Char.ofNat (55 + n)

/-- A word as eight hexadecimal digits. -/
def hexWord (w : Word32) : List Char :=
  [7, 6, 5, 4, 3, 2, 1, 0].map fun k => hexDigit (w.toNat / 16 ^ k % 16)

/-- A command in a listing: its five hex words (R75). -/
def listing (c : Command) : List Char :=
  hexWord c.cmd ++ [' '] ++ hexWord c.opa ++ [' '] ++ hexWord c.opb ++ [' '] ++ hexWord c.opc ++ [' '] ++ hexWord c.opd

end Sys2Proof.Machine
end

