-- ==== Sys2Proof/Safety.lean ====
section
/-! DEFINITION. The launch of a run, its end, success and observation (R180), and the responses that count as
faults of the host program (R153, R154). -/

namespace Sys2Proof.Machine

/-- The launch state of a program: BUSY = 0, no contract fault recorded, the commands presented in order, and
memory and the admitted bytes as the launch gives them (R75, R180). -/
def State.launch (program : List Command) (mem : Memory) (readOK writeOK : List Region) : State :=
  { State.reset with mem := mem, readOK := readOK, writeOK := writeOK, host := program.map .present }

/-- A response that counts as a fault of the host program: ERR_ILLEGAL or ERR_NB_BITS (R153, R154). -/
def Response.isProgramFault (r : Response) : Bool := r.status == statusIllegal || r.status == statusNbBits

/-- The responses of the run that are faults of the host program (R153, R154). -/
def State.programFaults (s : State) : List Response := s.observed.filter (·.isProgramFault)

/-- The run has ended: the response of the last command was delivered and BUSY = 0 (R180). R180 says nothing about a
run with a reset part-way; DESIGN CHOICE (log entry 14): such a run is never counted as ended. It speaks of a nonempty
list of commands alone; DESIGN CHOICE (log entry 16): host moves of other kinds must have been taken too, and a run with
no command has ended at its launch. -/
def State.ended (s : State) : Bool := s.host == [] && !s.busy && !s.resetLanded

/-- The run has ended successfully: no contract fault, no ERR_ILLEGAL and no ERR_NB_BITS response (R180); and so, by the
choice `ended` makes, no reset (log entry 14). -/
def State.succeeded (s : State) : Bool := s.ended && s.contractFaults == [] && s.programFaults == []

/-- The observation of a run: its responses and caller memory (R180). -/
def State.observation (s : State) : List Response × Memory := (s.observed, s.mem)

/-- The three values STATUS can take (R150). -/
def legalStatus (b : Byte) : Bool := b == statusOk || b == statusIllegal || b == statusNbBits

/-- What every step keeps: memory is canonical and inside the space (R26), every response delivered has a legal
STATUS (R150), the response message is the last response delivered (R24, R61), and a command lost to a contract
fault has its fault on record (R152). -/
structure State.Inv (s : State) : Prop where
  memory : s.mem.wf = true
  statuses : ∀ r ∈ s.observed, legalStatus r.status = true
  message : ∀ r, s.response = some r → s.observed.getLast? = some r
  lostOnRecord : ∀ f, s.port = .lost f → f ∈ s.contractFaults

end Sys2Proof.Machine
end

