-- ==== Sys2Proof/Certificates/Slice0/Obligations.lean ====
section
/-! DEFINITION. The statements for the provers, each from the numbered rules of spec/ its docstring names. The
shapes they share come first. -/

namespace Sys2Proof.Claims

open Sys2Proof.Machine

/-- `exec` answers a next state in which the response is delivered and nothing else is changed: no byte of memory,
no launch parameter, no recorded fault (R13, R71). -/
def AnswersOnly (i : Instr) (s : State) (r : Response) : Prop :=
  exec i s = .next { s with port := .ready, response := some r, observed := s.observed ++ [r] }

/-- `exec` answers `t`, in which the response is delivered and nothing else but memory is changed. -/
def AnswersInto (i : Instr) (s : State) (r : Response) (t : State) : Prop :=
  exec i s = .next t ∧
    t = { s with mem := t.mem, port := .ready, response := some r, observed := s.observed ++ [r] }

/-- `exec` answers a next state in which the contract fault is recorded and no response is delivered (R152). That a
contract fault is a next state, with the port `lost`, is the model's form of it (log entry 4). -/
def Raises (i : Instr) (s : State) (f : ContractFault) : Prop :=
  ∃ t, exec i s = .next t ∧ t.port = .lost f ∧ t.response = none ∧ t.observed = s.observed ∧
    t.contractFaults = s.contractFaults ++ [f] ∧ t.rom = s.rom ∧ t.readOK = s.readOK ∧ t.writeOK = s.writeOK ∧
    t.host = s.host ∧ t.resetLanded = s.resetLanded

/-- Offset `k` is the first of `n` whose address is not admitted. -/
def FirstNotAdmitted (ok : Nat → Bool) (addr : Nat → Nat) (n k : Nat) : Prop :=
  k < n ∧ ok (addr k) = false ∧ ∀ j < k, ok (addr j) = true

/-- The host has no move in the way of the command in flight: it has none, presents a command, or waits. -/
def NothingInTheWay (s : State) : Prop :=
  s.host = [] ∨ (∃ c q, s.host = .present c :: q) ∨ ∃ q, s.host = .awaitResponse :: q

/-- STATUS each command answers with when it answers (R151). -/
def statusOf : Instr → Byte
  | .bpkPackByte _ _ nbBits => if 8 < nbBits.toNat then 0x02 else 0x00
  | _ => 0x00

/-- The four bytes A, B, C, D of a pattern, most significant first (R120). -/
def byteA (v : Word32) : Byte := v.extractLsb' 24 8
def byteB (v : Word32) : Byte := v.extractLsb' 16 8
def byteC (v : Word32) : Byte := v.extractLsb' 8 8
def byteD (v : Word32) : Byte := v.extractLsb' 0 8

/-- `swapB` of R134: the two bytes of each word. -/
def swapB (w : Word16 × Word16) : Word16 × Word16 :=
  (w.1.extractLsb' 0 8 ++ w.1.extractLsb' 8 8, w.2.extractLsb' 0 8 ++ w.2.extractLsb' 8 8)

/-- `swapW` of R134: the two words. -/
def swapW (w : Word16 × Word16) : Word16 × Word16 := (w.2, w.1)

/-- The twelve legal command words (R67). -/
def legalWords : List Word32 :=
  [0x40, 0x41, 0x50, 0x51, 0x60, 0x61, 0x70, 0x71, 0x80, 0x81, 0x82, 0xC0]

/-- The mnemonics of R73 and R74, each with how many operands it takes. -/
def mnemonicsAndCounts : List (List Char × Nat) :=
  [("FWR.DEC.ABCD".toList, 2), ("FWR.DEC.DCBA".toList, 2), ("FWR.DEC.BADC".toList, 2), ("FWR.DEC.CDAB".toList, 2),
    ("FWR.ENC.ABCD".toList, 1), ("FWR.ENC.DCBA".toList, 1), ("FWR.ENC.BADC".toList, 1), ("FWR.ENC.CDAB".toList, 1),
    ("BPK.UNPACK_BYTE".toList, 3), ("BPK.UNPACK_BYTES".toList, 4), ("BPK.PACK_BYTE".toList, 3),
    ("BPK.PACK8".toList, 2), ("RLR.LOOKUP".toList, 2)]

/-- The run of a program goes on for `k` steps from its launch, and `t` is where it stands (R75, R180). -/
def RunsTo (program : List Command) (mem : Memory) (readOK writeOK : List Region) (k : Nat) (t : State) : Prop :=
  Host.Core.run Sys2Proof.core k (State.launch program mem readOK writeOK) = .next t

end Sys2Proof.Claims

open Sys2Proof Sys2Proof.Machine Sys2Proof.Claims

/-! ### Encoding -/

/-- R67: the opcode map, every CMD value. -/
def Obligations.DecodeFollowsTheOpcodeMap : Prop :=
  ∀ c : Command,
    (c.cmd = 0x40 → decode c = some (.fwrDecAbcd (c.opa.extractLsb' 0 16) (c.opb.extractLsb' 0 16))) ∧
    (c.cmd = 0x50 → decode c = some (.fwrDecDcba (c.opa.extractLsb' 0 16) (c.opb.extractLsb' 0 16))) ∧
    (c.cmd = 0x60 → decode c = some (.fwrDecBadc (c.opa.extractLsb' 0 16) (c.opb.extractLsb' 0 16))) ∧
    (c.cmd = 0x70 → decode c = some (.fwrDecCdab (c.opa.extractLsb' 0 16) (c.opb.extractLsb' 0 16))) ∧
    (c.cmd = 0x41 → decode c = some (.fwrEncAbcd c.opa)) ∧
    (c.cmd = 0x51 → decode c = some (.fwrEncDcba c.opa)) ∧
    (c.cmd = 0x61 → decode c = some (.fwrEncBadc c.opa)) ∧
    (c.cmd = 0x71 → decode c = some (.fwrEncCdab c.opa)) ∧
    (c.cmd = 0x80 → decode c = some (.bpkUnpackByte c.opa c.opb (c.opc.extractLsb' 0 8))) ∧
    (c.cmd = 0x81 → decode c = some (.bpkUnpackBytes c.opa c.opb c.opc c.opd)) ∧
    (c.cmd = 0x82 → decode c = some (.bpkPackByte c.opa c.opb c.opc)) ∧
    (c.cmd = 0xC0 → decode c = some (.rlrLookup (c.opa.extractLsb' 0 8) c.opb)) ∧
    (c.cmd ∉ legalWords → decode c = none)

/-- R68: which CMD values are illegal, how many are legal, and what an illegal command answers. -/
def Obligations.IllegalCommandsAreTheFiveKinds : Prop :=
  legalWords.length = 12 ∧ legalWords.Nodup ∧
  ∀ c : Command,
    (decode c = none ↔ c.cmd ∉ legalWords) ∧
    (decode c = none ↔
      c.cmd.extractLsb' 8 24 ≠ 0 ∨ c.cmd.extractLsb' 6 2 = 0#2 ∨
      (c.cmd.extractLsb' 6 2 = 1#2 ∧ c.cmd.extractLsb' 1 3 ≠ 0) ∨
      (c.cmd.extractLsb' 6 2 = 2#2 ∧ (c.cmd.extractLsb' 4 2 ≠ 0 ∨ 3 ≤ (c.cmd.extractLsb' 0 4).toNat)) ∨
      (c.cmd.extractLsb' 6 2 = 3#2 ∧ c.cmd.extractLsb' 0 6 ≠ 0)) ∧
    (decode c = none → ∀ s : State,
      (planCommand c s).reads = [] ∧ (planCommand c s).writes = [] ∧
      (s.port = .ready → ∀ q, s.host = .present c :: q →
        step s = .next { s with host := q, port := .busy c, response := none }) ∧
      runCommand c s = .next { s with
        port := .ready, response := some ⟨0x01, 0, 0⟩, observed := s.observed ++ [⟨0x01, 0, 0⟩] })

/-- Decoding what the encoder writes gives the command back, every operand at every value (R67, R70, R73). -/
def Obligations.DecodeOfEncodeIsTheCommand : Prop := ∀ i : Instr, decode (encode i) = some i

/-- The other direction: a message as an assembler writes it (R73) decodes, and is what the encoder writes. -/
def Obligations.EncodeOfDecodeIsTheMessage : Prop :=
  ∀ c : Command, c.wellFormed = true ↔ ∃ i, decode c = some i ∧ encode i = c

/-- A few rows of the opcode table, by the numbers the table prints. -/
def Obligations.TableWordsDecode : Prop :=
  decodeTableWord 32 0x00000040 = some (.fwrDecAbcd 0 0) ∧
  decodeTableWord 32 0x00000071 = some (.fwrEncCdab 0) ∧
  decodeTableWord 32 0x00000081 = some (.bpkUnpackBytes 0 0 0 0) ∧
  decodeTableWord 32 0x000000C0 = some (.rlrLookup 0 0) ∧
  decodeTableWord 32 0x00000140 = none

/-- R70: operand bits a command does not read have no effect on what is decoded. -/
def Obligations.IgnoredOperandBitsHaveNoEffect : Prop :=
  ∀ c d : Command, c.cmd = d.cmd →
    (c.cmd ∈ [0x40, 0x50, 0x60, 0x70] → c.opa.extractLsb' 0 16 = d.opa.extractLsb' 0 16 →
      c.opb.extractLsb' 0 16 = d.opb.extractLsb' 0 16 → decode c = decode d) ∧
    (c.cmd ∈ [0x41, 0x51, 0x61, 0x71] → c.opa = d.opa → decode c = decode d) ∧
    (c.cmd = 0x80 → c.opa = d.opa → c.opb = d.opb → c.opc.extractLsb' 0 8 = d.opc.extractLsb' 0 8 →
      decode c = decode d) ∧
    (c.cmd = 0x82 → c.opa = d.opa → c.opb = d.opb → c.opc = d.opc → decode c = decode d) ∧
    (c.cmd = 0xC0 → c.opa.extractLsb' 0 8 = d.opa.extractLsb' 0 8 → c.opb = d.opb → decode c = decode d) ∧
    (c.cmd ∉ legalWords → decode c = decode d)

/-- R73, R74: for every mnemonic, the assembler takes operands that fit their fields, as the instruction that holds
them, and refuses a value that does not fit; it refuses every other operand count and every other mnemonic. (Reading a
line of text into a mnemonic and numbers rests on log entry 10 and is not stated here.) -/
def Obligations.AssemblerChecksOperandWidths : Prop :=
  (∀ w0 w1, assembleWords "FWR.DEC.ABCD".toList [w0, w1] =
    if w0 < 2 ^ 16 ∧ w1 < 2 ^ 16 then some (.fwrDecAbcd (BitVec.ofNat 16 w0) (BitVec.ofNat 16 w1)) else none) ∧
  (∀ w0 w1, assembleWords "FWR.DEC.DCBA".toList [w0, w1] =
    if w0 < 2 ^ 16 ∧ w1 < 2 ^ 16 then some (.fwrDecDcba (BitVec.ofNat 16 w0) (BitVec.ofNat 16 w1)) else none) ∧
  (∀ w0 w1, assembleWords "FWR.DEC.BADC".toList [w0, w1] =
    if w0 < 2 ^ 16 ∧ w1 < 2 ^ 16 then some (.fwrDecBadc (BitVec.ofNat 16 w0) (BitVec.ofNat 16 w1)) else none) ∧
  (∀ w0 w1, assembleWords "FWR.DEC.CDAB".toList [w0, w1] =
    if w0 < 2 ^ 16 ∧ w1 < 2 ^ 16 then some (.fwrDecCdab (BitVec.ofNat 16 w0) (BitVec.ofNat 16 w1)) else none) ∧
  (∀ v, assembleWords "FWR.ENC.ABCD".toList [v] =
    if v < 2 ^ 32 then some (.fwrEncAbcd (BitVec.ofNat 32 v)) else none) ∧
  (∀ v, assembleWords "FWR.ENC.DCBA".toList [v] =
    if v < 2 ^ 32 then some (.fwrEncDcba (BitVec.ofNat 32 v)) else none) ∧
  (∀ v, assembleWords "FWR.ENC.BADC".toList [v] =
    if v < 2 ^ 32 then some (.fwrEncBadc (BitVec.ofNat 32 v)) else none) ∧
  (∀ v, assembleWords "FWR.ENC.CDAB".toList [v] =
    if v < 2 ^ 32 then some (.fwrEncCdab (BitVec.ofNat 32 v)) else none) ∧
  (∀ d x v, assembleWords "BPK.UNPACK_BYTE".toList [d, x, v] =
    if d < 2 ^ 32 ∧ x < 2 ^ 32 ∧ v < 2 ^ 8 then
      some (.bpkUnpackByte (BitVec.ofNat 32 d) (BitVec.ofNat 32 x) (BitVec.ofNat 8 v)) else none) ∧
  (∀ d x n p, assembleWords "BPK.UNPACK_BYTES".toList [d, x, n, p] =
    if d < 2 ^ 32 ∧ x < 2 ^ 32 ∧ n < 2 ^ 32 ∧ p < 2 ^ 32 then
      some (.bpkUnpackBytes (BitVec.ofNat 32 d) (BitVec.ofNat 32 x) (BitVec.ofNat 32 n) (BitVec.ofNat 32 p))
    else none) ∧
  (∀ p x n, assembleWords "BPK.PACK_BYTE".toList [p, x, n] =
    if p < 2 ^ 32 ∧ x < 2 ^ 32 ∧ n < 2 ^ 32 then
      some (.bpkPackByte (BitVec.ofNat 32 p) (BitVec.ofNat 32 x) (BitVec.ofNat 32 n)) else none) ∧
  (∀ p x, assembleWords "BPK.PACK8".toList [p, x] =
    if p < 2 ^ 32 ∧ x < 2 ^ 32 then some (.bpkPackByte (BitVec.ofNat 32 p) (BitVec.ofNat 32 x) 8) else none) ∧
  (∀ f p, assembleWords "RLR.LOOKUP".toList [f, p] =
    if f < 2 ^ 8 ∧ p < 2 ^ 32 then some (.rlrLookup (BitVec.ofNat 8 f) (BitVec.ofNat 32 p)) else none) ∧
  ∀ mnemonic operands, (mnemonic, operands.length) ∉ mnemonicsAndCounts → assembleWords mnemonic operands = none

/-- R74: the one pseudo-instruction. -/
def Obligations.Pack8ExpandsToPackByte : Prop :=
  ∀ src idx, assembleWords "BPK.PACK8".toList [src, idx] = assembleWords "BPK.PACK_BYTE".toList [src, idx, 8]

/-! ### RegisterFloatCodec -/

/-- R124 to R127: the four decode commands, their encodings, operands, results and frame. -/
def Obligations.FwrDecodeRespondsWithTheFloat : Prop :=
  (∀ (s : State) (w0 w1 : Word16),
    AnswersOnly (.fwrDecAbcd w0 w1) s ⟨0x00, w0 ++ w1, 0⟩ ∧
    AnswersOnly (.fwrDecDcba w0 w1) s
      ⟨0x00, w1.extractLsb' 0 8 ++ w1.extractLsb' 8 8 ++ w0.extractLsb' 0 8 ++ w0.extractLsb' 8 8, 0⟩ ∧
    AnswersOnly (.fwrDecBadc w0 w1) s
      ⟨0x00, w0.extractLsb' 0 8 ++ w0.extractLsb' 8 8 ++ w1.extractLsb' 0 8 ++ w1.extractLsb' 8 8, 0⟩ ∧
    AnswersOnly (.fwrDecCdab w0 w1) s ⟨0x00, w1 ++ w0, 0⟩) ∧
  ∀ c : Command,
    (c.cmd = 0x40 → decode c = some (.fwrDecAbcd (c.opa.extractLsb' 0 16) (c.opb.extractLsb' 0 16))) ∧
    (c.cmd = 0x50 → decode c = some (.fwrDecDcba (c.opa.extractLsb' 0 16) (c.opb.extractLsb' 0 16))) ∧
    (c.cmd = 0x60 → decode c = some (.fwrDecBadc (c.opa.extractLsb' 0 16) (c.opb.extractLsb' 0 16))) ∧
    (c.cmd = 0x70 → decode c = some (.fwrDecCdab (c.opa.extractLsb' 0 16) (c.opb.extractLsb' 0 16)))

/-- R128 to R131: the four encode commands, their encodings, operand, results and frame. -/
def Obligations.FwrEncodeRespondsWithTheWords : Prop :=
  (∀ (s : State) (v : Word32),
    AnswersOnly (.fwrEncAbcd v) s
      ⟨0x00, (v.extractLsb' 16 16).setWidth 32, (v.extractLsb' 0 16).setWidth 32⟩ ∧
    AnswersOnly (.fwrEncDcba v) s
      ⟨0x00, (byteD v ++ byteC v).setWidth 32, (byteB v ++ byteA v).setWidth 32⟩ ∧
    AnswersOnly (.fwrEncBadc v) s
      ⟨0x00, (byteB v ++ byteA v).setWidth 32, (byteD v ++ byteC v).setWidth 32⟩ ∧
    AnswersOnly (.fwrEncCdab v) s
      ⟨0x00, (v.extractLsb' 0 16).setWidth 32, (v.extractLsb' 16 16).setWidth 32⟩) ∧
  ∀ c : Command,
    (c.cmd = 0x41 → decode c = some (.fwrEncAbcd c.opa)) ∧
    (c.cmd = 0x51 → decode c = some (.fwrEncDcba c.opa)) ∧
    (c.cmd = 0x61 → decode c = some (.fwrEncBadc c.opa)) ∧
    (c.cmd = 0x71 → decode c = some (.fwrEncCdab c.opa))

/-- R135: no FWR command touches memory, whatever is admitted, and none can raise a contract fault. -/
def Obligations.FwrTouchesNoMemoryAndAlwaysAnswersOk : Prop :=
  ∀ (s : State) (w0 w1 : Word16) (v : Word32),
    ∀ i ∈ [Instr.fwrDecAbcd w0 w1, .fwrDecDcba w0 w1, .fwrDecBadc w0 w1, .fwrDecCdab w0 w1,
        .fwrEncAbcd v, .fwrEncDcba v, .fwrEncBadc v, .fwrEncCdab v],
      (planOf i s).reads = [] ∧ (planOf i s).writes = [] ∧ ∃ r, r.status = 0x00 ∧ AnswersOnly i s r

/-- R133 (which the spec derives from R124 to R131): through the port, encoding and then decoding under the same
ordering gives the pattern back bit for bit, and decoding and then encoding gives the pair back. The second message
carries the first response's fields. -/
def Obligations.FwrRoundTripsThroughThePort : Prop :=
  ∀ p ∈ [(0x40#32, 0x41#32), (0x50#32, 0x51#32), (0x60#32, 0x61#32), (0x70#32, 0x71#32)],
    ∀ (s : State) (x y : Word32),
      (∃ t w0 w1, runCommand ⟨p.2, x, y, 0, 0⟩ s = .next t ∧ t.response = some ⟨0x00, w0, w1⟩ ∧
        ∀ s' : State, ∃ t', runCommand ⟨p.1, w0, w1, 0, 0⟩ s' = .next t' ∧ t'.response = some ⟨0x00, x, 0⟩) ∧
      (∃ t v, runCommand ⟨p.1, x, y, 0, 0⟩ s = .next t ∧ t.response = some ⟨0x00, v, 0⟩ ∧
        ∀ s' : State, ∃ t', runCommand ⟨p.2, v, 0, 0, 0⟩ s' = .next t' ∧
          t'.response = some ⟨0x00, (x.extractLsb' 0 16).setWidth 32, (y.extractLsb' 0 16).setWidth 32⟩)

/-- R134 (which the spec derives from R124 to R131): the swap laws of the four orderings, inverses, and that they
are pairwise different functions. -/
def Obligations.FwrOrderingsAreTheSwaps : Prop :=
  (∀ v, encBadc v = swapB (encAbcd v) ∧ encCdab v = swapW (encAbcd v) ∧
    encDcba v = swapW (swapB (encAbcd v)) ∧ encDcba v = swapB (swapW (encAbcd v))) ∧
  (∀ w, swapB (swapB w) = w ∧ swapW (swapW w) = w ∧ swapB (swapW w) = swapW (swapB w)) ∧
  (∀ v, decAbcd (encAbcd v).1 (encAbcd v).2 = v ∧ decDcba (encDcba v).1 (encDcba v).2 = v ∧
    decBadc (encBadc v).1 (encBadc v).2 = v ∧ decCdab (encCdab v).1 (encCdab v).2 = v) ∧
  (∀ w0 w1, encAbcd (decAbcd w0 w1) = (w0, w1) ∧ encDcba (decDcba w0 w1) = (w0, w1) ∧
    encBadc (decBadc w0 w1) = (w0, w1) ∧ encCdab (decCdab w0 w1) = (w0, w1)) ∧
  [encAbcd 0x11223344, encDcba 0x11223344, encBadc 0x11223344, encCdab 0x11223344] =
    [(0x1122, 0x3344), (0x4433, 0x2211), (0x2211, 0x4433), (0x3344, 0x1122)] ∧
  [encAbcd, encDcba, encBadc, encCdab].Pairwise (· ≠ ·)

/-! ### ResponseLengthROM -/

/-- R80: the contents of the length ROM, all 256 codes. The ten numbers beyond 0x01 and 0x03 are general knowledge
in the spec itself (log entry 3). -/
def Obligations.RomHoldsTheFunctionCodeTable : Prop :=
  State.reset.rom = fcMap ∧
  ∀ fc : Byte, fcMap.entry fc =
    if fc = 0x01 ∨ fc = 0x02 then .bits
    else if fc = 0x03 ∨ fc = 0x04 ∨ fc = 0x17 then .regs
    else if fc = 0x07 then .const3
    else if fc = 0x11 then .unknown
    else if fc = 0x16 then .const7
    else .const5

/-- R81, R82, R84: what RLR.LOOKUP answers for each class, with the quantity read big-endian. -/
def Obligations.LookupRespondsWithTheLength : Prop :=
  ∀ (s : State) (fc : Byte) (payload : Word32),
    ((s.rom.entry fc = .bits ∨ s.rom.entry fc = .regs) →
      s.readable (payload.toNat + 2) = true → s.readable (payload.toNat + 3) = true →
      ∃ nb : Nat, nb = (s.mem.read (payload.toNat + 2) ++ s.mem.read (payload.toNat + 3) : BitVec (8 + 8)).toNat ∧
        (s.rom.entry fc = .bits →
          AnswersOnly (.rlrLookup fc payload) s ⟨0x00, BitVec.ofNat 32 (2 + (nb + 7) / 8), 0⟩) ∧
        (s.rom.entry fc = .regs →
          AnswersOnly (.rlrLookup fc payload) s ⟨0x00, BitVec.ofNat 32 (2 + 2 * nb), 0⟩)) ∧
    (s.rom.entry fc = .const3 → AnswersOnly (.rlrLookup fc payload) s ⟨0x00, 3, 0⟩) ∧
    (s.rom.entry fc = .const5 → AnswersOnly (.rlrLookup fc payload) s ⟨0x00, 5, 0⟩) ∧
    (s.rom.entry fc = .const7 → AnswersOnly (.rlrLookup fc payload) s ⟨0x00, 7, 0⟩) ∧
    (s.rom.entry fc = .unknown → AnswersOnly (.rlrLookup fc payload) s ⟨0x00, 0, 1⟩)

/-- R83 (which the spec derives from R81 and R82): the bounds of a Known length, in the response RLR.LOOKUP delivers,
for any contents of the ROM: the number in RES0 is the exact length of the class, RES0[31:18] is 0, and the bounds are
reached. -/
def Obligations.KnownLengthsAreExactAndBounded : Prop :=
  ∀ (s t : State) (fc : Byte) (payload : Word32) (r : Response),
    exec (.rlrLookup fc payload) s = .next t → t.response = some r → r.res1 = 0 →
      2 ≤ r.res0.toNat ∧ r.res0.toNat ≤ 131072 ∧ r.res0.extractLsb' 18 14 = 0 ∧
      (s.rom.entry fc).length
        (s.mem.read (payload.toNat + 2) ++ s.mem.read (payload.toNat + 3) : BitVec (8 + 8)).toNat =
          .known r.res0.toNat ∧
      (s.rom.entry fc = .bits → r.res0.toNat ≤ 8194) ∧ (s.rom.entry fc = .const3 → r.res0 = 3) ∧
      (s.rom.entry fc = .const5 → r.res0 = 5) ∧ (s.rom.entry fc = .const7 → r.res0 = 7) ∧
      LengthClass.bits.length 0 = .known 2 ∧ LengthClass.bits.length 65535 = .known 8194 ∧
      LengthClass.regs.length 0 = .known 2 ∧ LengthClass.regs.length 65535 = .known 131072

/-- R87: which bytes RLR.LOOKUP reads, and that its response depends on no other byte. -/
def Obligations.LookupReadsOnlyTheQuantity : Prop :=
  ∀ (s : State) (fc : Byte) (payload : Word32) (m : Memory),
    (planOf (.rlrLookup fc payload) s).writes = [] ∧
    ((s.rom.entry fc = .bits ∨ s.rom.entry fc = .regs) →
      (planOf (.rlrLookup fc payload) s).reads = [payload.toNat + 2, payload.toNat + 3] ∧
      (m.read (payload.toNat + 2) = s.mem.read (payload.toNat + 2) →
        m.read (payload.toNat + 3) = s.mem.read (payload.toNat + 3) →
        planOf (.rlrLookup fc payload) { s with mem := m } = planOf (.rlrLookup fc payload) s)) ∧
    (s.rom.entry fc ≠ .bits → s.rom.entry fc ≠ .regs →
      (planOf (.rlrLookup fc payload) s).reads = [] ∧
      planOf (.rlrLookup fc payload) { s with mem := m } = planOf (.rlrLookup fc payload) s ∧
      ∃ r, AnswersOnly (.rlrLookup fc payload) s r)

/-- R89 (which the spec derives from R44): a quantity byte that is not admitted is a contract fault at the lower
failing address; nothing else of the state changes. The next state is the model's form of the fault (log entry 4).
-/
def Obligations.LookupFaultsOnAShortPayload : Prop :=
  ∀ (s : State) (fc : Byte) (payload : Word32),
    (s.rom.entry fc = .bits ∨ s.rom.entry fc = .regs) →
    (s.readable (payload.toNat + 2) = false ∨ s.readable (payload.toNat + 3) = false) →
    ∃ f : ContractFault, f.kind = .access ∧
      f.addr = (if s.readable (payload.toNat + 2) = false then payload.toNat + 2 else payload.toNat + 3) ∧
      exec (.rlrLookup fc payload) s =
        .next { s with port := .lost f, response := none, contractFaults := s.contractFaults ++ [f] }

/-! ### BitPacker -/

/-- R101: BPK.UNPACK_BYTE: its encoding; on admitted entries its eight bytes, its response and its frame; and the
contract fault at the first entry not admitted. -/
def Obligations.UnpackByteWritesEightEntries : Prop :=
  (∀ c : Command, c.cmd = 0x80 → decode c = some (.bpkUnpackByte c.opa c.opb (c.opc.extractLsb' 0 8))) ∧
  ∀ (s : State) (dest idx : Word32) (value : Byte), s.mem.wf = true →
    ((∀ k < 8, s.writable (dest.toNat + idx.toNat + k) = true) →
      ∃ t, AnswersInto (.bpkUnpackByte dest idx value) s ⟨0x00, 0, 0⟩ t ∧
        (∀ k < 8, t.mem.read (dest.toNat + idx.toNat + k) = if value.getLsbD k then 0x01 else 0x00) ∧
        ∀ a, a < dest.toNat + idx.toNat ∨ dest.toNat + idx.toNat + 8 ≤ a → t.mem.read a = s.mem.read a) ∧
    ∀ k, FirstNotAdmitted s.writable (fun k => dest.toNat + idx.toNat + k) 8 k →
      Raises (.bpkUnpackByte dest idx value) s ⟨.access, dest.toNat + idx.toNat + k⟩

/-- R102: BPK.UNPACK_BYTES: its encoding; on admitted, disjoint ranges every entry, its response and its frame; and
its contract faults in the order of the rule. -/
def Obligations.UnpackBytesWritesEveryEntry : Prop :=
  (∀ c : Command, c.cmd = 0x81 → decode c = some (.bpkUnpackBytes c.opa c.opb c.opc c.opd)) ∧
  ∀ (s : State) (dest idx nbBits src : Word32), s.mem.wf = true →
    ((∀ j < (nbBits.toNat + 7) / 8, s.readable (src.toNat + j) = true) →
      (∀ i < nbBits.toNat, s.writable (dest.toNat + idx.toNat + i) = true) →
      (∀ j < (nbBits.toNat + 7) / 8, ∀ i < nbBits.toNat, src.toNat + j ≠ dest.toNat + idx.toNat + i) →
      ∃ t, AnswersInto (.bpkUnpackBytes dest idx nbBits src) s ⟨0x00, 0, 0⟩ t ∧
        (∀ i < nbBits.toNat, t.mem.read (dest.toNat + idx.toNat + i) =
          if (s.mem.read (src.toNat + i / 8)).getLsbD (i % 8) then 0x01 else 0x00) ∧
        ∀ a, a < dest.toNat + idx.toNat ∨ dest.toNat + idx.toNat + nbBits.toNat ≤ a →
          t.mem.read a = s.mem.read a) ∧
    (∀ k, FirstNotAdmitted s.readable (fun j => src.toNat + j) ((nbBits.toNat + 7) / 8) k →
      Raises (.bpkUnpackBytes dest idx nbBits src) s ⟨.access, src.toNat + k⟩) ∧
    (∀ k, (∀ j < (nbBits.toNat + 7) / 8, s.readable (src.toNat + j) = true) →
      FirstNotAdmitted s.writable (fun i => dest.toNat + idx.toNat + i) nbBits.toNat k →
      Raises (.bpkUnpackBytes dest idx nbBits src) s ⟨.access, dest.toNat + idx.toNat + k⟩) ∧
    ∀ a, (∀ j < (nbBits.toNat + 7) / 8, s.readable (src.toNat + j) = true) →
      (∀ i < nbBits.toNat, s.writable (dest.toNat + idx.toNat + i) = true) →
      (∃ j < (nbBits.toNat + 7) / 8, a = src.toNat + j) → (∃ i < nbBits.toNat, a = dest.toNat + idx.toNat + i) →
      (∀ b < a, ¬ ((∃ j < (nbBits.toNat + 7) / 8, b = src.toNat + j) ∧
        ∃ i < nbBits.toNat, b = dest.toNat + idx.toNat + i)) →
      Raises (.bpkUnpackBytes dest idx nbBits src) s ⟨.overlap, a⟩

/-- R103: BPK.PACK_BYTE: its encoding; on admitted entries its byte, its STATUS and that it changes no memory; and
the contract fault at the first entry not admitted among those it reads. -/
def Obligations.PackByteRespondsWithThePackedByte : Prop :=
  (∀ c : Command, c.cmd = 0x82 → decode c = some (.bpkPackByte c.opa c.opb c.opc)) ∧
  ∀ (s : State) (src idx nbBits : Word32),
    ((∀ k < min nbBits.toNat 8, s.readable (src.toNat + idx.toNat + k) = true) →
      ∃ byte : Byte,
        (∀ k < 8, byte.getLsbD k =
          (decide (k < nbBits.toNat) && s.mem.read (src.toNat + idx.toNat + k) != 0x00)) ∧
        AnswersOnly (.bpkPackByte src idx nbBits) s
          ⟨if 8 < nbBits.toNat then 0x02 else 0x00, byte.setWidth 32, 0⟩) ∧
    ∀ k, FirstNotAdmitted s.readable (fun k => src.toNat + idx.toNat + k) (min nbBits.toNat 8) k →
      Raises (.bpkPackByte src idx nbBits) s ⟨.access, src.toNat + idx.toNat + k⟩

/-- R105 (which the spec derives from R102 and R103): a count of zero is legal and does nothing, whatever the
addresses and whatever is admitted. -/
def Obligations.ZeroCountDoesNothing : Prop :=
  ∀ (s : State) (dest idx src : Word32),
    AnswersOnly (.bpkUnpackBytes dest idx 0 src) s ⟨0x00, 0, 0⟩ ∧
    AnswersOnly (.bpkPackByte src idx 0) s ⟨0x00, 0, 0⟩

/-- R106: no BPK command writes a byte outside its write set, whichever way it ends. The two commands that unpack
write exactly the span at `dest + idx`; BPK.PACK_BYTE stores nothing. -/
def Obligations.BpkWritesOnlyItsWriteSet : Prop :=
  ∀ (s t : State) (dest idx nbBits src : Word32) (value : Byte) (a : Nat),
    (a ∈ (planOf (.bpkUnpackByte dest idx value) s).writeSet ↔
      dest.toNat + idx.toNat ≤ a ∧ a < dest.toNat + idx.toNat + 8) ∧
    (a ∈ (planOf (.bpkUnpackBytes dest idx nbBits src) s).writeSet ↔
      dest.toNat + idx.toNat ≤ a ∧ a < dest.toNat + idx.toNat + nbBits.toNat) ∧
    (exec (.bpkUnpackByte dest idx value) s = .next t →
      a < dest.toNat + idx.toNat ∨ dest.toNat + idx.toNat + 8 ≤ a → t.mem.read a = s.mem.read a) ∧
    (exec (.bpkUnpackBytes dest idx nbBits src) s = .next t →
      a < dest.toNat + idx.toNat ∨ dest.toNat + idx.toNat + nbBits.toNat ≤ a → t.mem.read a = s.mem.read a) ∧
    (exec (.bpkPackByte src idx nbBits) s = .next t → t.mem = s.mem)

/-- R107 (which the spec derives from R100, R102 and R103): unpacking `L` bytes and packing each group of eight
entries returns the bytes. -/
def Obligations.UnpackThenPackReturnsTheBytes : Prop :=
  ∀ (s t : State) (dest idx nbBits src : Word32) (len : Nat), s.mem.wf = true → nbBits.toNat = 8 * len →
    (∀ j < len, s.readable (src.toNat + j) = true) →
    (∀ i < 8 * len, s.writable (dest.toNat + idx.toNat + i) = true ∧
      s.readable (dest.toNat + idx.toNat + i) = true) →
    (∀ j < len, ∀ i < 8 * len, src.toNat + j ≠ dest.toNat + idx.toNat + i) →
    exec (.bpkUnpackBytes dest idx nbBits src) s = .next t →
    ∀ j < len, AnswersOnly (.bpkPackByte dest (BitVec.ofNat 32 (idx.toNat + 8 * j)) 8) t
      ⟨0x00, (s.mem.read (src.toNat + j)).setWidth 32, 0⟩

/-- R108 (which the spec derives from R100, R102 and R103): packing `m <= 8` entries and unpacking the byte with the
same count writes the entries, every nonzero one as 0x01: an entry that is 0x00 or 0x01 comes back as it was. -/
def Obligations.PackThenUnpackReturnsTheEntries : Prop :=
  ∀ (s t u : State) (src idx nbBits dest idx' src' : Word32) (byte : Byte), nbBits.toNat ≤ 8 → u.mem.wf = true →
    (∀ k < nbBits.toNat, s.readable (src.toNat + idx.toNat + k) = true) →
    exec (.bpkPackByte src idx nbBits) s = .next t → t.response = some ⟨0x00, byte.setWidth 32, 0⟩ →
    u.mem.read src'.toNat = byte → u.readable src'.toNat = true →
    (∀ k < nbBits.toNat, u.writable (dest.toNat + idx'.toNat + k) = true ∧
      dest.toNat + idx'.toNat + k ≠ src'.toNat) →
    ∃ v, AnswersInto (.bpkUnpackBytes dest idx' nbBits src') u ⟨0x00, 0, 0⟩ v ∧
      ∀ k < nbBits.toNat, v.mem.read (dest.toNat + idx'.toNat + k) =
        if s.mem.read (src.toNat + idx.toNat + k) = 0x00 then 0x00 else 0x01

/-- R111 (which the spec derives from R101 and R102): BPK.UNPACK_BYTE writes what BPK.UNPACK_BYTES of eight bits
writes from a packed byte with that value. -/
def Obligations.UnpackByteIsUnpackBytesOfEight : Prop :=
  ∀ (s : State) (dest idx src : Word32) (value : Byte), s.mem.read src.toNat = value →
    s.readable src.toNat = true →
    (∀ k < 8, s.writable (dest.toNat + idx.toNat + k) = true ∧ dest.toNat + idx.toNat + k ≠ src.toNat) →
    ∃ t, exec (.bpkUnpackByte dest idx value) s = .next t ∧ exec (.bpkUnpackBytes dest idx 8 src) s = .next t ∧
      t.port = .ready

/-! ### Memory, contract faults and errors -/

/-- R59 (which the spec derives from R87, R101 to R103 and R135): the read set and the write set of every command. -/
def Obligations.ReadAndWriteSetsAreTheTable : Prop :=
  ∀ (s : State) (a : Nat) (w0 w1 : Word16) (v dest idx nbBits src payload : Word32) (value fc : Byte),
    (∀ i ∈ [Instr.fwrDecAbcd w0 w1, .fwrDecDcba w0 w1, .fwrDecBadc w0 w1, .fwrDecCdab w0 w1,
        .fwrEncAbcd v, .fwrEncDcba v, .fwrEncBadc v, .fwrEncCdab v],
      a ∉ (planOf i s).reads ∧ a ∉ (planOf i s).writeSet) ∧
    (a ∉ (planOf (.bpkUnpackByte dest idx value) s).reads ∧
      (a ∈ (planOf (.bpkUnpackByte dest idx value) s).writeSet ↔ ∃ k < 8, a = dest.toNat + idx.toNat + k)) ∧
    ((a ∈ (planOf (.bpkUnpackBytes dest idx nbBits src) s).reads ↔
        ∃ j < (nbBits.toNat + 7) / 8, a = src.toNat + j) ∧
      (a ∈ (planOf (.bpkUnpackBytes dest idx nbBits src) s).writeSet ↔
        ∃ i < nbBits.toNat, a = dest.toNat + idx.toNat + i)) ∧
    ((a ∈ (planOf (.bpkPackByte src idx nbBits) s).reads ↔
        ∃ k < min nbBits.toNat 8, a = src.toNat + idx.toNat + k) ∧
      a ∉ (planOf (.bpkPackByte src idx nbBits) s).writeSet) ∧
    ((a ∈ (planOf (.rlrLookup fc payload) s).reads ↔
        (s.rom.entry fc = .bits ∨ s.rom.entry fc = .regs) ∧ (a = payload.toNat + 2 ∨ a = payload.toNat + 3)) ∧
      a ∉ (planOf (.rlrLookup fc payload) s).writeSet) ∧
    (a ∉ illegalPlan.reads ∧ a ∉ illegalPlan.writeSet)

/-- R155: which error decides when several apply. An illegal command has no other. Then an access fault, at the first
byte not admitted in the order of the command's pseudocode (reads before writes), whatever overlaps and whatever the
count; then an overlap, at the lowest common byte; then ERR_NB_BITS. -/
def Obligations.ErrorPrecedence : Prop :=
  ∀ (s : State) (dest idx nbBits src payload : Word32) (value fc : Byte),
    (∀ c : Command, decode c = none → ∃ t, runCommand c s = .next t ∧ t.response = some ⟨0x01, 0, 0⟩ ∧
      t.contractFaults = s.contractFaults ∧ t.mem = s.mem) ∧
    (∀ k, (s.rom.entry fc = .bits ∨ s.rom.entry fc = .regs) →
      FirstNotAdmitted s.readable (fun o => payload.toNat + 2 + o) 2 k →
      Raises (.rlrLookup fc payload) s ⟨.access, payload.toNat + 2 + k⟩) ∧
    (∀ k, FirstNotAdmitted s.writable (fun k => dest.toNat + idx.toNat + k) 8 k →
      Raises (.bpkUnpackByte dest idx value) s ⟨.access, dest.toNat + idx.toNat + k⟩) ∧
    (∀ k, FirstNotAdmitted s.readable (fun j => src.toNat + j) ((nbBits.toNat + 7) / 8) k →
      Raises (.bpkUnpackBytes dest idx nbBits src) s ⟨.access, src.toNat + k⟩) ∧
    (∀ k, (∀ j < (nbBits.toNat + 7) / 8, s.readable (src.toNat + j) = true) →
      FirstNotAdmitted s.writable (fun i => dest.toNat + idx.toNat + i) nbBits.toNat k →
      Raises (.bpkUnpackBytes dest idx nbBits src) s ⟨.access, dest.toNat + idx.toNat + k⟩) ∧
    (∀ a, (∀ j < (nbBits.toNat + 7) / 8, s.readable (src.toNat + j) = true) →
      (∀ i < nbBits.toNat, s.writable (dest.toNat + idx.toNat + i) = true) →
      (∃ j < (nbBits.toNat + 7) / 8, a = src.toNat + j) → (∃ i < nbBits.toNat, a = dest.toNat + idx.toNat + i) →
      (∀ b < a, ¬ ((∃ j < (nbBits.toNat + 7) / 8, b = src.toNat + j) ∧
        ∃ i < nbBits.toNat, b = dest.toNat + idx.toNat + i)) →
      Raises (.bpkUnpackBytes dest idx nbBits src) s ⟨.overlap, a⟩) ∧
    (∀ k, FirstNotAdmitted s.readable (fun k => src.toNat + idx.toNat + k) (min nbBits.toNat 8) k →
      Raises (.bpkPackByte src idx nbBits) s ⟨.access, src.toNat + idx.toNat + k⟩) ∧
    (8 < nbBits.toNat → (∀ k < 8, s.readable (src.toNat + idx.toNat + k) = true) →
      ∃ t r, exec (.bpkPackByte src idx nbBits) s = .next t ∧ t.response = some r ∧ r.status = 0x02 ∧
        t.contractFaults = s.contractFaults)

/-- R57: a command whose write set overlaps its read set, every byte of both admitted, raises OVERLAP at the lowest
byte in both; nothing else raises it, and only BPK.UNPACK_BYTES can. -/
def Obligations.OverlapIsReportedAtTheLowestCommonByte : Prop :=
  ∀ (s : State) (i : Instr),
    (∀ a, (∀ x ∈ (planOf i s).reads, s.readable x = true) → (∀ x ∈ (planOf i s).writeSet, s.writable x = true) →
      a ∈ (planOf i s).reads → a ∈ (planOf i s).writeSet →
      (∀ b < a, ¬ (b ∈ (planOf i s).reads ∧ b ∈ (planOf i s).writeSet)) → Raises i s ⟨.overlap, a⟩) ∧
    ∀ (t : State) (a : Nat), exec i s = .next t → t.port = .lost ⟨.overlap, a⟩ →
      (a ∈ (planOf i s).reads ∧ a ∈ (planOf i s).writeSet ∧
        ∀ b < a, ¬ (b ∈ (planOf i s).reads ∧ b ∈ (planOf i s).writeSet)) ∧
      ∃ dest idx nbBits src, i = .bpkUnpackBytes dest idx nbBits src

/-- R10, R43: no address of 2^32 or more is admitted, so a command whose range runs past the top of an otherwise
admitted memory faults at the first such address; no address wraps. -/
def Obligations.AddressesPastTheTopFault : Prop :=
  ∀ (s : State), (∀ a, 2 ^ 32 ≤ a → s.readable a = false ∧ s.writable a = false) ∧
    ((∀ a < 2 ^ 32, s.readable a = true ∧ s.writable a = true) →
      ∀ (base idx nbBits src payload : Word32) (value fc : Byte),
        (2 ^ 32 < base.toNat + idx.toNat + 8 →
          Raises (.bpkUnpackByte base idx value) s ⟨.access, max (2 ^ 32) (base.toNat + idx.toNat)⟩) ∧
        (2 ^ 32 < src.toNat + (nbBits.toNat + 7) / 8 →
          Raises (.bpkUnpackBytes base idx nbBits src) s ⟨.access, 2 ^ 32⟩) ∧
        (src.toNat + (nbBits.toNat + 7) / 8 ≤ 2 ^ 32 → 0 < nbBits.toNat →
          2 ^ 32 < base.toNat + idx.toNat + nbBits.toNat →
          Raises (.bpkUnpackBytes base idx nbBits src) s ⟨.access, max (2 ^ 32) (base.toNat + idx.toNat)⟩) ∧
        (0 < nbBits.toNat → 2 ^ 32 < base.toNat + idx.toNat + min nbBits.toNat 8 →
          Raises (.bpkPackByte base idx nbBits) s ⟨.access, max (2 ^ 32) (base.toNat + idx.toNat)⟩) ∧
        ((s.rom.entry fc = .bits ∨ s.rom.entry fc = .regs) → 2 ^ 32 < payload.toNat + 4 →
          Raises (.rlrLookup fc payload) s ⟨.access, max (2 ^ 32) (payload.toNat + 2)⟩))

/-- R152: after a contract fault each byte of the write set inside the space holds a draw of its own, whatever that
draw is; the draws of distinct bytes are distinct; every other byte is unchanged. The draws, and that other bytes keep
their values, are the model's (log entries 4 and 5). -/
def Obligations.ContractFaultLeavesTheWriteSetUnconstrained : Prop :=
  ∀ (s t : State) (i : Instr) (f : ContractFault), s.mem.wf = true → exec i s = .next t → t.port = .lost f →
    (∀ k a, (planOf i s).writeSet[k]? = some a → a < 2 ^ 32 → t.mem.read a = Config.freeByte (s.draws + k)) ∧
    (∀ a, a ∉ (planOf i s).writeSet → t.mem.read a = s.mem.read a) ∧
    t.draws = s.draws + (planOf i s).writeSet.length

/-- R152: a contract fault is kept for the rest of the run: no step takes one off the record, a state with one on
record is never a successful end, and the block answers nothing more for a lost command. That the step stops there
is the model's (log entry 4). -/
def Obligations.ContractFaultsAreKept : Prop :=
  (∀ s t, step s = .next t → s.contractFaults <+: t.contractFaults) ∧
  (∀ s : State, s.contractFaults ≠ [] → s.succeeded = false) ∧
  (∀ (s : State) (f : ContractFault), s.port = .lost f → NothingInTheWay s → step s = .fault (.contract f))

/-- R151: how each command ends: with its STATUS, or with a contract fault and no response; FWR and illegal commands
always answer. -/
def Obligations.EveryCommandEndsWithItsStatus : Prop :=
  (∀ (s : State) (i : Instr), ∃ t, exec i s = .next t ∧
    ((∃ r, t.port = .ready ∧ t.response = some r ∧ t.observed = s.observed ++ [r] ∧
        t.contractFaults = s.contractFaults ∧ r.status = statusOf i) ∨
      (∃ f, t.port = .lost f ∧ t.response = none ∧ t.observed = s.observed ∧
        t.contractFaults = s.contractFaults ++ [f] ∧
        ∀ (w0 w1 : Word16) (v : Word32), i ∉ [Instr.fwrDecAbcd w0 w1, .fwrDecDcba w0 w1, .fwrDecBadc w0 w1,
          .fwrDecCdab w0 w1, .fwrEncAbcd v, .fwrEncDcba v, .fwrEncBadc v, .fwrEncCdab v]))) ∧
  ∀ (s : State) (c : Command), decode c = none →
    ∃ t, runCommand c s = .next t ∧ t.port = .ready ∧ t.response = some ⟨0x01, 0, 0⟩

/-- R153: an illegal command is accepted like any other, reads and writes no caller memory, and is answered; the block
is otherwise unchanged and ready, and the response counts as a fault of the host program. -/
def Obligations.IllegalCommandIsAnsweredAndForgotten : Prop :=
  ∀ (s : State) (c : Command), decode c = none →
    (planCommand c s).reads = [] ∧ (planCommand c s).writes = [] ∧
    (∀ q, s.port = .ready → s.host = .present c :: q →
      step s = .next { s with host := q, port := .busy c, response := none }) ∧
    (s.port = .busy c → NothingInTheWay s →
      step s = .next { s with
        port := .ready, response := some ⟨0x01, 0, 0⟩, observed := s.observed ++ [⟨0x01, 0, 0⟩] } ∧
      ∀ t, step s = .next t → t.programFaults = s.programFaults ++ [⟨0x01, 0, 0⟩] ∧ t.succeeded = false ∧
        t.busy = false)

/-- R153, R154, R180: when a run has ended successfully. A run of a program from its launch has done so exactly when
every command of the program has its response and no contract fault, ERR_ILLEGAL or ERR_NB_BITS response has occurred. A
state that counts as a successful end, whatever the host's moves before it were, has no move left, BUSY = 0 and no such
fault, and no reset in its run (log entry 14). That a program with no command has ended at its launch, and that the
host's other moves must be taken too, are the model's (log entry 16). -/
def Obligations.SuccessMeansNoFaultOfAnyKind : Prop :=
  (∀ (program : List Command) (mem : Memory) (readOK writeOK : List Region) (k : Nat) (t : State),
    RunsTo program mem readOK writeOK k t →
      (t.succeeded = true ↔ t.observed.length = program.length ∧ t.contractFaults = [] ∧
        ∀ r ∈ t.observed, r.status ≠ 0x01 ∧ r.status ≠ 0x02)) ∧
  ∀ s : State, s.succeeded = true →
    s.host = [] ∧ s.busy = false ∧ s.contractFaults = [] ∧ s.resetLanded = false ∧
      ∀ r ∈ s.observed, r.status ≠ 0x01 ∧ r.status ≠ 0x02

/-- R3: a command's result is a function of its operands and of the bytes it reads. Two states that agree on the
ROM, the launch parameters and the read set give the same response, the same written bytes, and the same contract
fault, whatever else has gone before. -/
def Obligations.ResultDependsOnOperandsAndReadSetOnly : Prop :=
  ∀ (i : Instr) (s s' t : State), s.rom = s'.rom → s.readOK = s'.readOK → s.writeOK = s'.writeOK →
    s.mem.wf = true → s'.mem.wf = true → (∀ a ∈ (planOf i s).reads, s.mem.read a = s'.mem.read a) →
    exec i s = .next t →
    ∃ t', exec i s' = .next t' ∧ t'.port = t.port ∧ t'.response = t.response ∧
      (∀ f, t.port = .lost f → t'.contractFaults = s'.contractFaults ++ [f]) ∧
      (t.port = .ready → ∀ a ∈ (planOf i s).writeSet, t'.mem.read a = t.mem.read a)

/-- R48: the order in which a command's bytes are written cannot be observed. -/
def Obligations.WriteOrderIsUnobservable : Prop :=
  ∀ (m : Memory) (cs ds : List Host.Cell), m.wf = true → (∀ c ∈ cs, c.1 < 2 ^ 32) → (cs.map Prod.fst).Nodup →
    cs.Perm ds → m.writeAll cs = m.writeAll ds

/-! ### The step, the host and reset -/

/-- A step runs the decoded command: with a command in flight and no host move in its way, the step is `exec` of the
instruction the message decodes to; an illegal one is answered (R47, R67, R153). -/
def Obligations.StepRunsTheDecodedCommand : Prop :=
  (∀ (s : State) (c : Command) (i : Instr), s.port = .busy c → decode c = some i → NothingInTheWay s →
    step s = exec i s) ∧
  (∀ (s : State) (c : Command), s.port = .busy c → decode c = none → NothingInTheWay s → step s = execIllegal s) ∧
  (∀ (s : State) (nbits w : Nat) (i : Instr), decodeTableWord nbits w = some i →
    step (s.withFetchWord nbits w) = exec i (s.withFetchWord nbits w))

/-- R175: the port takes a command only when BUSY = 0, taking it sets BUSY to 1, the response sets it back, and a
command presented while BUSY = 1 waits and is not lost. -/
def Obligations.PortTakesACommandOnlyWhenNotBusy : Prop :=
  ∀ (s : State) (c : Command) (q : List HostMove), s.host = .present c :: q →
    (s.busy = false → ∃ t, step s = .next t ∧ t.port = .busy c ∧ t.busy = true ∧ t.host = q ∧ t.mem = s.mem ∧
      t.observed = s.observed) ∧
    (s.busy = true → ∀ t, step s = .next t → t.host = .present c :: q ∧
      (∀ r, t.observed = s.observed ++ [r] → t.busy = false))

/-- R179: a command in flight with no host move in its way responds in one step, or is lost to a contract fault on
record. That it takes one step is the model's form of fairness (log entry 13). -/
def Obligations.InFlightCommandResponds : Prop :=
  ∀ (s : State) (c : Command), s.port = .busy c → NothingInTheWay s →
    ∃ t, step s = .next t ∧ t.host = s.host ∧
      ((t.port = .ready ∧ t.observed.length = s.observed.length + 1) ∨
        ∃ f, t.port = .lost f ∧ t.contractFaults = s.contractFaults ++ [f])

/-- R47, R49, R58: no host move that the model admits while a command is in flight changes what the command will
read, write or answer, so that its one step could as well have been taken at its acceptance. -/
def Obligations.HostCannotDisturbACommandInFlight : Prop :=
  ∀ (s t : State) (c : Command), s.port = .busy c → step s = .next t → t.port = .busy c →
    planCommand c t = planCommand c s ∧
      (planCommand c t).contractFault t = (planCommand c s).contractFault s ∧
      ∀ a ∈ (planCommand c s).writeSet, t.mem.read a = s.mem.read a

/-- R58, R176: the host may not write the read or write set of the command in flight, nor read its write set; it may
write and read every other byte. The refusal is the model's form of the duty (log entry 8). -/
def Obligations.HostDutiesDuringACommand : Prop :=
  ∀ (s : State) (c : Command) (a : Word32) (v : Byte) (q : List HostMove), s.port = .busy c →
    (s.host = .write a v :: q →
      (a.toNat ∈ (planCommand c s).reads ∨ a.toNat ∈ (planCommand c s).writeSet →
        step s = .refused (.hostBreach a.toNat)) ∧
      (a.toNat ∉ (planCommand c s).reads → a.toNat ∉ (planCommand c s).writeSet →
        step s = .next { s with mem := s.mem.write a.toNat v, host := q })) ∧
    (s.host = .read a :: q →
      (a.toNat ∈ (planCommand c s).writeSet → step s = .refused (.hostBreach a.toNat)) ∧
      (a.toNat ∉ (planCommand c s).writeSet → step s = .next { s with host := q }))

/-- R24: reading a response before any response is a fault, and so it is after a reset and after the next command is
accepted. That a message can be read until then is the model's choice (log entry 7). -/
def Obligations.NoResponseIsReadBeforeOneIsDelivered : Prop :=
  (∀ (s : State) (q : List HostMove), s.host = .readResponse :: q →
    (s.response = none → step s = .fault .noResponse) ∧
    (∀ r, s.response = some r → step s = .next { s with host := q })) ∧
  State.reset.response = none ∧
  (∀ (s t : State) (q : List HostMove), s.host = .reset :: q → step s = .next t → t.response = none) ∧
  (∀ (s t : State) (c : Command) (q : List HostMove), s.host = .present c :: q → s.port = .ready →
    step s = .next t → t.response = none)

/-- R31: the state right after reset, the values the spec gives. -/
def Obligations.ResetStateIsReady : Prop :=
  State.reset.busy = false ∧ State.reset.port = .ready ∧ State.reset.response = none ∧ State.reset.rom = fcMap ∧
    ∀ (c : Command) (q : List HostMove), ∃ t, step { State.reset with host := .present c :: q } = .next t ∧
      t.port = .busy c

/-- R170: a reset makes the block ready whatever it was doing, so that the next command presented is taken, and
changes neither the ROM nor, with no command in flight (R171 says what it leaves of one), any byte of memory. That this
holds of a port lost to a contract fault too is the model's (log entry 11), and so is the mark it leaves on the run's
record (log entry 14). -/
def Obligations.ResetMakesTheBlockReady : Prop :=
  ∀ (s : State) (q : List HostMove), s.host = .reset :: q →
    (∃ t, step s = .next t ∧ t.busy = false ∧ t.response = none ∧ t.rom = s.rom ∧ t.host = q ∧
      ∀ c q', q = .present c :: q' → ∃ u, step t = .next u ∧ u.port = .busy c ∧ u.mem = t.mem) ∧
    ((∀ c, s.port ≠ .busy c) →
      step s = .next { s with host := q, port := .ready, response := none, resetLanded := true })

/-- R171: a reset with a command in flight: no response, BUSY = 0, each byte of the write set old or new by a choice
of its own, every other byte and the ROM unchanged. A command whose contract is broken has no new values; what its reset
leaves is the model's (log entry 9) and is not stated here. -/
def Obligations.ResetInFlightLeavesEachByteOldOrNew : Prop :=
  ∀ (s : State) (c : Command) (q : List HostMove), s.host = .reset :: q → s.port = .busy c → s.mem.wf = true →
    ∃ t, step s = .next t ∧ t.port = .ready ∧ t.response = none ∧ t.observed = s.observed ∧ t.rom = s.rom ∧
      t.host = q ∧
      (∀ a, a ∉ (planCommand c s).writeSet → t.mem.read a = s.mem.read a) ∧
      ((planCommand c s).contractFault s = none →
        (∀ k a v, (planCommand c s).writes[k]? = some (a, v) →
          t.mem.read a = if Config.freeChoice (s.draws + k) then v else s.mem.read a) ∧
        t.contractFaults = s.contractFaults)

/-! ### Invariants -/

/-- The invariant holds right after reset. -/
def Obligations.InvariantHoldsAtReset : Prop := State.reset.Inv

/-- R26, R61, R150, R152: from every state that meets the invariant, every step keeps it. -/
def Obligations.EveryStepKeepsTheInvariant : Prop := ∀ s t : State, s.Inv → step s = .next t → t.Inv

/-- R10, R27: no step changes the length ROM or the launch parameters. -/
def Obligations.NoStepChangesRomOrLaunchParameters : Prop :=
  ∀ s t : State, step s = .next t → t.rom = s.rom ∧ t.readOK = s.readOK ∧ t.writeOK = s.writeOK

/-- R49, R157, R180: the record of responses only grows, by at most one response a step, and memory changes only in
the bytes the command in flight writes or the byte the host writes. -/
def Obligations.StepFrame : Prop :=
  ∀ s t : State, step s = .next t →
    (t.observed = s.observed ∨ ∃ r, t.observed = s.observed ++ [r] ∧ t.response = some r ∧ t.port = .ready) ∧
    (∀ a, t.mem.read a ≠ s.mem.read a →
      (∃ c, s.port = .busy c ∧ a ∈ (planCommand c s).writeSet) ∨
        ∃ x v q, s.host = .write x v :: q ∧ a = x.toNat)

/-- R49, R174: with BUSY = 0 every host write and read lands, at any address of the space: the byte holds the value
written, which is what a command accepted later reads, and nothing else is changed. -/
def Obligations.HostAccessLandsWhenReady : Prop :=
  ∀ (s : State) (a : Word32) (v : Byte) (q : List HostMove), s.busy = false →
    (s.host = .write a v :: q →
      ∃ t, step s = .next t ∧ t = { s with mem := t.mem, host := q } ∧
        (s.mem.wf = true → t.mem.read a.toNat = v) ∧ ∀ b, b ≠ a.toNat → t.mem.read b = s.mem.read b) ∧
    (s.host = .read a :: q → step s = .next { s with host := q })

/-- A run in which a reset has landed keeps that on its record, and is never counted as ended or successful. R180 says
nothing about such a run and 95_test_vectors.md P5 puts it outside the definition: the model's choice, log entry 14. -/
def Obligations.RunsWithAResetNeverCountAsEnded : Prop :=
  (∀ (s t : State) (q : List HostMove), s.host = .reset :: q → step s = .next t → t.resetLanded = true) ∧
  (∀ s t : State, step s = .next t → s.resetLanded = true → t.resetLanded = true) ∧
  ∀ s : State, s.resetLanded = true → s.ended = false ∧ s.succeeded = false
end

