-- ==== Sys2Proof/Laws/Assembler.lean ====
section
/-! SUPPORT. The assembler: which form each mnemonic takes, the operand counts each form takes, and when a value fits. -/

namespace Sys2Proof.Machine

/-- A value that must fit before the rest is read. -/
theorem fits_bind {w n : Nat} {α : Type} (f : BitVec w → Option α) :
    (fits w n).bind f = if n < 2 ^ w then f (BitVec.ofNat w n) else none := by
  unfold fits
  split <;> rfl

theorem fits_map {w n : Nat} {α : Type} (f : BitVec w → α) :
    (fits w n).map f = if n < 2 ^ w then some (f (BitVec.ofNat w n)) else none := by
  unfold fits
  split <;> rfl

section Mnemonics

variable (operands : List Nat)

theorem assembleWords_fwr_dec_abcd : assembleWords "FWR.DEC.ABCD".toList operands = assembleDec .fwrDecAbcd operands := rfl

theorem assembleWords_fwr_dec_dcba : assembleWords "FWR.DEC.DCBA".toList operands = assembleDec .fwrDecDcba operands := rfl

theorem assembleWords_fwr_dec_badc : assembleWords "FWR.DEC.BADC".toList operands = assembleDec .fwrDecBadc operands := rfl

theorem assembleWords_fwr_dec_cdab : assembleWords "FWR.DEC.CDAB".toList operands = assembleDec .fwrDecCdab operands := rfl

theorem assembleWords_fwr_enc_abcd : assembleWords "FWR.ENC.ABCD".toList operands = assembleEnc .fwrEncAbcd operands := rfl

theorem assembleWords_fwr_enc_dcba : assembleWords "FWR.ENC.DCBA".toList operands = assembleEnc .fwrEncDcba operands := rfl

theorem assembleWords_fwr_enc_badc : assembleWords "FWR.ENC.BADC".toList operands = assembleEnc .fwrEncBadc operands := rfl

theorem assembleWords_fwr_enc_cdab : assembleWords "FWR.ENC.CDAB".toList operands = assembleEnc .fwrEncCdab operands := rfl

theorem assembleWords_bpk_unpack_byte : assembleWords "BPK.UNPACK_BYTE".toList operands = assembleUnpackByte operands := rfl

theorem assembleWords_bpk_unpack_bytes : assembleWords "BPK.UNPACK_BYTES".toList operands = assembleUnpackBytes operands := rfl

theorem assembleWords_bpk_pack_byte : assembleWords "BPK.PACK_BYTE".toList operands = assemblePackByte operands := rfl

theorem assembleWords_bpk_pack8 : assembleWords "BPK.PACK8".toList operands = assemblePack8 operands := rfl

theorem assembleWords_rlr_lookup : assembleWords "RLR.LOOKUP".toList operands = assembleLookup operands := rfl

end Mnemonics

/-! Each form refuses every operand count but its own (R73). -/

theorem assembleDec_count {f : Word16 → Word16 → Instr} {ops : List Nat} (h : ops.length ≠ 2) :
    assembleDec f ops = none := by
  unfold assembleDec
  split
  · simp at h
  · rfl

theorem assembleEnc_count {f : Word32 → Instr} {ops : List Nat} (h : ops.length ≠ 1) : assembleEnc f ops = none := by
  unfold assembleEnc
  split
  · simp at h
  · rfl

theorem assembleUnpackByte_count {ops : List Nat} (h : ops.length ≠ 3) : assembleUnpackByte ops = none := by
  unfold assembleUnpackByte
  split
  · simp at h
  · rfl

theorem assembleUnpackBytes_count {ops : List Nat} (h : ops.length ≠ 4) : assembleUnpackBytes ops = none := by
  unfold assembleUnpackBytes
  split
  · simp at h
  · rfl

theorem assemblePackByte_count {ops : List Nat} (h : ops.length ≠ 3) : assemblePackByte ops = none := by
  unfold assemblePackByte
  split
  · simp at h
  · rfl

theorem assemblePack8_count {ops : List Nat} (h : ops.length ≠ 2) : assemblePack8 ops = none := by
  unfold assemblePack8
  split
  · simp at h
  · rfl

theorem assembleLookup_count {ops : List Nat} (h : ops.length ≠ 2) : assembleLookup ops = none := by
  unfold assembleLookup
  split
  · simp at h
  · rfl

end Sys2Proof.Machine
end

