-- ==== Sys2Proof/Laws/Memory.lean ====
section
/-! SUPPORT. Caller memory: read after write, what a write leaves alone, the canonical form kept by every operation,
and equal memories are equal data. -/

namespace Sys2Proof.Machine

/-- The canonical form of a memory that begins with a cell. -/
theorem Memory.wf_cons {a : Nat} {v : Byte} {m : Memory} :
    Memory.wf ((a, v) :: m) = true ↔
      a < addrSpace ∧ v ≠ unlisted ∧ (∀ c ∈ m, a < c.1) ∧ Memory.wf m = true := by
  simp [Memory.wf, and_assoc]

/-- An address below every listed one reads as unlisted. -/
theorem Memory.read_of_lt {m : Memory} {a : Nat} (h : ∀ c ∈ m, a < c.1) : m.read a = unlisted := by
  induction m with
  | nil => rfl
  | cons c m ih =>
    obtain ⟨b, v⟩ := c
    have hb : a < b := h (b, v) (by simp)
    rw [Memory.read, if_neg (by omega)]
    exact ih fun c hc => h c (by simp [hc])

/-- A listed cell is one that was listed or the one written. -/
theorem Memory.mem_write {m : Memory} {a : Nat} {v : Byte} {c : Host.Cell} (h : c ∈ m.write a v) :
    c = (a, v) ∨ c ∈ m := by
  induction m with
  | nil =>
    simp only [Memory.write] at h
    split at h <;> simp_all
  | cons d m ih =>
    obtain ⟨b, w⟩ := d
    simp only [Memory.write] at h
    split at h
    · split at h <;> simp_all
    · split at h
      · split at h
        · exact .inr (by simp [h])
        · rcases List.mem_cons.1 h with rfl | h
          · exact .inl (by simp_all)
          · exact .inr (by simp [h])
      · rcases List.mem_cons.1 h with rfl | h
        · exact .inr (by simp)
        · rcases ih h with h | h
          · exact .inl h
          · exact .inr (by simp [h])

/-- A write keeps the canonical form. -/
theorem Memory.wf_write {m : Memory} {a : Nat} (v : Byte) (hm : m.wf = true) (ha : a < addrSpace) :
    (m.write a v).wf = true := by
  induction m with
  | nil =>
    simp only [Memory.write]
    split
    · rfl
    · rw [Memory.wf_cons]
      exact ⟨ha, by assumption, by simp, rfl⟩
  | cons d m ih =>
    obtain ⟨b, w⟩ := d
    obtain ⟨hb, hw, hlt, hm'⟩ := Memory.wf_cons.1 hm
    simp only [Memory.write]
    split
    · split
      · exact hm
      · rw [Memory.wf_cons]
        refine ⟨ha, by assumption, ?_, hm⟩
        intro c hc
        rcases List.mem_cons.1 hc with rfl | hc
        · assumption
        · exact lt_trans (by assumption) (hlt c hc)
    · split
      · subst_vars
        split
        · exact hm'
        · exact Memory.wf_cons.2 ⟨ha, by assumption, hlt, hm'⟩
      · rw [Memory.wf_cons]
        refine ⟨hb, hw, ?_, ih hm'⟩
        intro c hc
        rcases Memory.mem_write hc with rfl | hc
        · show b < a
          omega
        · exact hlt c hc

/-- A write leaves every other byte alone, in any list of cells. -/
theorem Memory.read_write_other {m : Memory} {a b : Nat} (v : Byte) (h : b ≠ a) :
    (m.write a v).read b = m.read b := by
  induction m with
  | nil =>
    simp only [Memory.write]
    split
    · rfl
    · simp [Memory.read, Ne.symm h]
  | cons d m ih =>
    obtain ⟨x, w⟩ := d
    simp only [Memory.write]
    split
    · split
      · rfl
      · rw [Memory.read, if_neg (Ne.symm h)]
    · split
      · subst_vars
        split <;> simp [Memory.read, Ne.symm h]
      · simp only [Memory.read, ih]

/-- A byte just written reads as written. -/
theorem Memory.read_write_same {m : Memory} {a : Nat} (v : Byte) (hm : m.wf = true) :
    (m.write a v).read a = v := by
  induction m with
  | nil =>
    simp only [Memory.write]
    split
    · simp_all [Memory.read]
    · simp [Memory.read]
  | cons d m ih =>
    obtain ⟨b, w⟩ := d
    obtain ⟨-, -, hlt, hm'⟩ := Memory.wf_cons.1 hm
    simp only [Memory.write]
    split
    · rename_i hab
      split
      · subst_vars
        refine Memory.read_of_lt fun c hc => ?_
        rcases List.mem_cons.1 hc with rfl | hc
        · exact hab
        · exact lt_trans hab (hlt c hc)
      · simp [Memory.read]
    · split
      · subst_vars
        split
        · subst_vars
          exact Memory.read_of_lt hlt
        · simp [Memory.read]
      · rw [Memory.read, if_neg (by omega), ih hm']

/-- Writing a list of cells keeps the canonical form. -/
theorem Memory.wf_writeAll {m : Memory} {cs : List Host.Cell} (hm : m.wf = true) (h : ∀ c ∈ cs, c.1 < addrSpace) :
    (m.writeAll cs).wf = true := by
  induction cs generalizing m with
  | nil => exact hm
  | cons c cs ih =>
    exact ih (Memory.wf_write c.2 hm (h c (by simp))) fun d hd => h d (by simp [hd])

/-- Writing a list of cells leaves every other byte alone. -/
theorem Memory.read_writeAll_other {m : Memory} {cs : List Host.Cell} {a : Nat} (h : ∀ c ∈ cs, c.1 ≠ a) :
    (m.writeAll cs).read a = m.read a := by
  induction cs generalizing m with
  | nil => rfl
  | cons c cs ih =>
    rw [Memory.writeAll, ih fun d hd => h d (by simp [hd]), Memory.read_write_other]
    exact (h c (by simp)).symm

/-- Each byte of a list of cells at distinct addresses reads as written. -/
theorem Memory.read_writeAll_mem {m : Memory} {cs : List Host.Cell} {a : Nat} {v : Byte} (hm : m.wf = true)
    (hs : ∀ c ∈ cs, c.1 < addrSpace) (hn : (cs.map Prod.fst).Nodup) (h : (a, v) ∈ cs) :
    (m.writeAll cs).read a = v := by
  induction cs generalizing m with
  | nil => simp at h
  | cons c cs ih =>
    rw [List.map_cons, List.nodup_cons] at hn
    have hm' : (m.write c.1 c.2).wf = true := Memory.wf_write c.2 hm (hs c (by simp))
    rcases List.mem_cons.1 h with rfl | h
    · rw [Memory.writeAll, Memory.read_writeAll_other, Memory.read_write_same v hm]
      intro d hd he
      exact hn.1 (List.mem_map.2 ⟨d, hd, he⟩)
    · exact ih hm' (fun d hd => hs d (by simp [hd])) hn.2 h

/-- Equal memories are equal data: two canonical memories that read alike everywhere are the same list. -/
theorem Memory.ext_read {m n : Memory} (hm : m.wf = true) (hn : n.wf = true) (h : ∀ a, m.read a = n.read a) :
    m = n := by
  induction m generalizing n with
  | nil =>
    cases n with
    | nil => rfl
    | cons d n =>
      obtain ⟨b, w⟩ := d
      have := h b
      simp [Memory.read] at this
      exact absurd this.symm (Memory.wf_cons.1 hn).2.1
  | cons c m ih =>
    obtain ⟨a, v⟩ := c
    obtain ⟨-, hv, hlt, hm'⟩ := Memory.wf_cons.1 hm
    cases n with
    | nil =>
      have := h a
      simp [Memory.read] at this
      exact absurd this hv
    | cons d n =>
      obtain ⟨b, w⟩ := d
      obtain ⟨-, hw, hltn, hn'⟩ := Memory.wf_cons.1 hn
      have hab : a = b := by
        by_contra hne
        rcases Nat.lt_or_gt_of_ne hne with hl | hl
        · have := h a
          rw [Memory.read, if_pos rfl, Memory.read_of_lt] at this
          · exact hv this
          · intro c hc
            rcases List.mem_cons.1 hc with rfl | hc
            · exact hl
            · exact lt_trans hl (hltn c hc)
        · have := h b
          rw [Memory.read_of_lt, Memory.read, if_pos rfl] at this
          · exact hw this.symm
          · intro c hc
            rcases List.mem_cons.1 hc with rfl | hc
            · exact hl
            · exact lt_trans hl (hlt c hc)
      subst hab
      have hvw : v = w := by simpa [Memory.read] using h a
      subst hvw
      have : m = n := by
        refine ih hm' hn' fun x => ?_
        by_cases hx : x = a
        · subst hx
          rw [Memory.read_of_lt hlt, Memory.read_of_lt hltn]
        · have := h x
          simpa [Memory.read, Ne.symm hx] using this
      rw [this]

end Sys2Proof.Machine
end

