-- ==== Sys2Proof/Laws/Operands.lean ====
section
/-! SUPPORT. What the address, bit-lane and rounding helpers give. -/

namespace Sys2Proof.Machine

/-- An address of a span, from its base and offset. -/
theorem entryAddr_eq (base idx : Word32) (k : Nat) : entryAddr base idx k = base.toNat + idx.toNat + k := rfl

theorem packedAddr_eq (src : Word32) (j : Nat) : packedAddr src j = src.toNat + j := rfl

theorem payloadAddr_eq (payload : Word32) (o : Nat) : payloadAddr payload o = payload.toNat + o := rfl

/-- Distinct offsets are distinct entries. -/
theorem entryAddr_inj {base idx : Word32} {j k : Nat} : entryAddr base idx j = entryAddr base idx k ↔ j = k := by
  unfold entryAddr
  omega

/-- Packed byte `i / 8` is one of the `ceil_div(n, 8)` bytes of a span of `n` bits. -/
theorem div_lt_ceilDiv {i n : Nat} (h : i < n) : i / 8 < ceilDiv n 8 := by
  unfold ceilDiv
  omega

/-- A written entry is nonzero exactly when its bit is set (R100). -/
@[simp] theorem bitOfEntry_entryOfBit (b : Bool) : bitOfEntry (entryOfBit b) = b := by
  cases b <;> rfl

@[simp] theorem entryOfBit_eq_zero (b : Bool) : entryOfBit b = 0 ↔ b = false := by
  cases b <;> simp [entryOfBit]

theorem entryOfBit_getLsbD (b : Bool) (k : Nat) : (entryOfBit b).getLsbD k = (b && decide (k = 0)) := by
  cases b <;> cases k <;> simp [entryOfBit]

/-- Lane `k` of a packed byte is bit `k` of the list, 0 beyond its end (R112). -/
theorem getLsbD_packBits (bs : List Bool) (k : Nat) (hk : k < 8) :
    (packBits bs).getLsbD k = (bs[k]?).getD false := by
  induction bs generalizing k with
  | nil => simp [packBits]
  | cons b bs ih =>
    rw [packBits, BitVec.getLsbD_or, entryOfBit_getLsbD, BitVec.getLsbD_shiftLeft]
    cases k with
    | zero => simp
    | succ k =>
      simp [ih k (by omega), hk]

/-- Packing the eight bits of a byte gives the byte. -/
theorem packBits_range (b : Byte) : packBits ((List.range 8).map b.getLsbD) = b := by
  refine BitVec.eq_of_getLsbD_eq fun k hk => ?_
  rw [getLsbD_packBits _ _ hk]
  simp [hk]

end Sys2Proof.Machine
end

