-- ==== Sys2Proof/Laws/State.lean ====
section
/-! SUPPORT. One lemma per field for each update of State (deliver, raise, accept, placeInFlight), and what a reset
leaves in each field. -/

namespace Sys2Proof.Machine

variable (s : State)

@[simp] theorem State.deliver_mem (r : Response) : (s.deliver r).mem = s.mem := rfl
@[simp] theorem State.deliver_port (r : Response) : (s.deliver r).port = .ready := rfl
@[simp] theorem State.deliver_response (r : Response) : (s.deliver r).response = some r := rfl
@[simp] theorem State.deliver_observed (r : Response) : (s.deliver r).observed = s.observed ++ [r] := rfl
@[simp] theorem State.deliver_contractFaults (r : Response) : (s.deliver r).contractFaults = s.contractFaults := rfl
@[simp] theorem State.deliver_resetLanded (r : Response) : (s.deliver r).resetLanded = s.resetLanded := rfl
@[simp] theorem State.deliver_rom (r : Response) : (s.deliver r).rom = s.rom := rfl
@[simp] theorem State.deliver_readOK (r : Response) : (s.deliver r).readOK = s.readOK := rfl
@[simp] theorem State.deliver_writeOK (r : Response) : (s.deliver r).writeOK = s.writeOK := rfl
@[simp] theorem State.deliver_host (r : Response) : (s.deliver r).host = s.host := rfl
@[simp] theorem State.deliver_draws (r : Response) : (s.deliver r).draws = s.draws := rfl

@[simp] theorem State.raise_mem (f : ContractFault) (ws : List Nat) : (s.raise f ws).mem = s.mem.writeAll (freeCells s.draws ws) := rfl
@[simp] theorem State.raise_port (f : ContractFault) (ws : List Nat) : (s.raise f ws).port = .lost f := rfl
@[simp] theorem State.raise_response (f : ContractFault) (ws : List Nat) : (s.raise f ws).response = none := rfl
@[simp] theorem State.raise_observed (f : ContractFault) (ws : List Nat) : (s.raise f ws).observed = s.observed := rfl
@[simp] theorem State.raise_contractFaults (f : ContractFault) (ws : List Nat) : (s.raise f ws).contractFaults = s.contractFaults ++ [f] := rfl
@[simp] theorem State.raise_resetLanded (f : ContractFault) (ws : List Nat) : (s.raise f ws).resetLanded = s.resetLanded := rfl
@[simp] theorem State.raise_rom (f : ContractFault) (ws : List Nat) : (s.raise f ws).rom = s.rom := rfl
@[simp] theorem State.raise_readOK (f : ContractFault) (ws : List Nat) : (s.raise f ws).readOK = s.readOK := rfl
@[simp] theorem State.raise_writeOK (f : ContractFault) (ws : List Nat) : (s.raise f ws).writeOK = s.writeOK := rfl
@[simp] theorem State.raise_host (f : ContractFault) (ws : List Nat) : (s.raise f ws).host = s.host := rfl
@[simp] theorem State.raise_draws (f : ContractFault) (ws : List Nat) : (s.raise f ws).draws = s.draws + ws.length := rfl

@[simp] theorem State.accept_mem (c : Command) : (s.accept c).mem = s.mem := rfl
@[simp] theorem State.accept_port (c : Command) : (s.accept c).port = .busy c := rfl
@[simp] theorem State.accept_response (c : Command) : (s.accept c).response = none := rfl
@[simp] theorem State.accept_observed (c : Command) : (s.accept c).observed = s.observed := rfl
@[simp] theorem State.accept_contractFaults (c : Command) : (s.accept c).contractFaults = s.contractFaults := rfl
@[simp] theorem State.accept_resetLanded (c : Command) : (s.accept c).resetLanded = s.resetLanded := rfl
@[simp] theorem State.accept_rom (c : Command) : (s.accept c).rom = s.rom := rfl
@[simp] theorem State.accept_readOK (c : Command) : (s.accept c).readOK = s.readOK := rfl
@[simp] theorem State.accept_writeOK (c : Command) : (s.accept c).writeOK = s.writeOK := rfl
@[simp] theorem State.accept_host (c : Command) : (s.accept c).host = s.host := rfl
@[simp] theorem State.accept_draws (c : Command) : (s.accept c).draws = s.draws := rfl

@[simp] theorem State.placeInFlight_mem (c : Command) : (s.placeInFlight c).mem = s.mem := rfl
@[simp] theorem State.placeInFlight_port (c : Command) : (s.placeInFlight c).port = .busy c := rfl
@[simp] theorem State.placeInFlight_response (c : Command) : (s.placeInFlight c).response = s.response := rfl
@[simp] theorem State.placeInFlight_observed (c : Command) : (s.placeInFlight c).observed = s.observed := rfl
@[simp] theorem State.placeInFlight_contractFaults (c : Command) : (s.placeInFlight c).contractFaults = s.contractFaults := rfl
@[simp] theorem State.placeInFlight_resetLanded (c : Command) : (s.placeInFlight c).resetLanded = s.resetLanded := rfl
@[simp] theorem State.placeInFlight_rom (c : Command) : (s.placeInFlight c).rom = s.rom := rfl
@[simp] theorem State.placeInFlight_readOK (c : Command) : (s.placeInFlight c).readOK = s.readOK := rfl
@[simp] theorem State.placeInFlight_writeOK (c : Command) : (s.placeInFlight c).writeOK = s.writeOK := rfl
@[simp] theorem State.placeInFlight_host (c : Command) : (s.placeInFlight c).host = .awaitResponse :: s.host := rfl
@[simp] theorem State.placeInFlight_draws (c : Command) : (s.placeInFlight c).draws = s.draws := rfl

@[simp] theorem State.takeReset_observed : s.takeReset.observed = s.observed := by
  unfold State.takeReset abandon
  split <;> (try split) <;> rfl

@[simp] theorem State.takeReset_rom : s.takeReset.rom = s.rom := by
  unfold State.takeReset abandon
  split <;> (try split) <;> rfl

@[simp] theorem State.takeReset_readOK : s.takeReset.readOK = s.readOK := by
  unfold State.takeReset abandon
  split <;> (try split) <;> rfl

@[simp] theorem State.takeReset_writeOK : s.takeReset.writeOK = s.writeOK := by
  unfold State.takeReset abandon
  split <;> (try split) <;> rfl

@[simp] theorem State.takeReset_host : s.takeReset.host = s.host := by
  unfold State.takeReset abandon
  split <;> (try split) <;> rfl

@[simp] theorem State.takeReset_port : s.takeReset.port = .ready := by
  unfold State.takeReset
  split <;> simp_all

@[simp] theorem State.takeReset_resetLanded : s.takeReset.resetLanded = true := by
  unfold State.takeReset
  split <;> rfl

@[simp] theorem State.takeReset_response : s.takeReset.response = none := by
  unfold State.takeReset
  split <;> rfl

/-- BUSY is 0 exactly when the port is ready (R29). -/
theorem State.busy_eq_false : s.busy = false ↔ s.port = .ready := by
  simp [State.busy]

/-- Withdrawing the host's next move changes nothing that a plan looks at. -/
theorem planCommand_withHost (c : Command) (rest : List HostMove) :
    planCommand c { s with host := rest } = planCommand c s := by
  unfold planCommand
  cases decode c with
  | none => rfl
  | some i => cases i <;> rfl

end Sys2Proof.Machine
end

