-- ==== Sys2Proof/Laws/Ops.lean ====
section
/-! SUPPORT. What the shared operations can do: when a command keeps its contract, how it ends, what it leaves alone. -/

namespace Sys2Proof.Machine

/-- The launch parameters admit no address outside the space (R10). -/
theorem lt_of_admits {rs : List Region} {a : Nat} (h : admits rs a = true) : a < addrSpace := by
  unfold admits at h
  simp only [Bool.and_eq_true, decide_eq_true_eq] at h
  exact h.1

theorem State.lt_of_writable {s : State} {a : Nat} (h : s.writable a = true) : a < addrSpace := lt_of_admits h

theorem State.lt_of_readable {s : State} {a : Nat} (h : s.readable a = true) : a < addrSpace := lt_of_admits h

/-- No common address exactly when the sets are disjoint. -/
theorem lowestCommon_eq_none {xs ys : List Nat} : lowestCommon xs ys = none ↔ ∀ a ∈ xs, a ∉ ys := by
  simp [lowestCommon, List.min?_eq_none_iff]

/-- The address reported is common to both sets, and no lower one is (R57). -/
theorem lowestCommon_eq_some {xs ys : List Nat} {a : Nat} :
    lowestCommon xs ys = some a ↔ (a ∈ xs ∧ a ∈ ys) ∧ ∀ b ∈ xs, b ∈ ys → a ≤ b := by
  rw [lowestCommon, List.min?_eq_some_iff]
  simp

theorem admitReads_eq_none {s : State} {as : List Nat} :
    admitReads s as = none ↔ ∀ a ∈ as, s.readable a = true := by
  simp [admitReads]

theorem admitWrites_eq_none {s : State} {as : List Nat} :
    admitWrites s as = none ↔ ∀ a ∈ as, s.writable a = true := by
  simp [admitWrites]

theorem checkOverlap_eq_none {xs ys : List Nat} : checkOverlap xs ys = none ↔ ∀ a ∈ xs, a ∉ ys := by
  rw [checkOverlap, Option.map_eq_none_iff, lowestCommon_eq_none]

/-- A command keeps its contract exactly when every byte it reads and writes is admitted and its sets are disjoint
(R44, R57). -/
theorem Plan.contractFault_eq_none {p : Plan} {s : State} :
    p.contractFault s = none ↔
      (∀ a ∈ p.reads, s.readable a = true) ∧ (∀ a ∈ p.writeSet, s.writable a = true) ∧
        ∀ a ∈ p.reads, a ∉ p.writeSet := by
  rw [Plan.contractFault, Option.or_eq_none_iff, Option.or_eq_none_iff, admitReads_eq_none, admitWrites_eq_none,
    checkOverlap_eq_none]

/-- The contract depends on the plan and the launch parameters alone. -/
theorem Plan.contractFault_congr {p : Plan} {s t : State} (hr : s.readOK = t.readOK) (hw : s.writeOK = t.writeOK) :
    p.contractFault s = p.contractFault t := by
  simp [Plan.contractFault, admitReads, admitWrites, State.readable, State.writable, hr, hw]

/-- A command that keeps its contract writes its bytes and answers. -/
theorem complete_of_none {p : Plan} {s : State} (h : p.contractFault s = none) :
    complete p s = { s with mem := s.mem.writeAll p.writes }.deliver p.response := by
  rw [complete, h]

/-- A command that breaks its contract raises its contract fault. -/
theorem complete_of_some {p : Plan} {s : State} {f : ContractFault} (h : p.contractFault s = some f) :
    complete p s = s.raise f p.writeSet := by
  rw [complete, h]

/-- The two ways a command ends (R166). -/
theorem complete_cases (p : Plan) (s : State) :
    (p.contractFault s = none ∧ complete p s = { s with mem := s.mem.writeAll p.writes }.deliver p.response) ∨
      ∃ f, p.contractFault s = some f ∧ complete p s = s.raise f p.writeSet := by
  cases h : p.contractFault s with
  | none => exact .inl ⟨rfl, complete_of_none h⟩
  | some f => exact .inr ⟨f, rfl, complete_of_some h⟩

/-- A command that touches no memory always answers, and changes nothing else. -/
theorem complete_no_access (r : Response) (s : State) :
    complete { reads := [], writes := [], response := r } s = s.deliver r := by
  rw [complete_of_none]
  · rfl
  · rw [Plan.contractFault_eq_none]
    simp [Plan.writeSet]

/-- A free cell is at an address of the write set inside the space. -/
theorem mem_freeCells {n : Nat} {as : List Nat} {c : Host.Cell} (h : c ∈ freeCells n as) :
    c.1 ∈ as ∧ c.1 < addrSpace := by
  induction as generalizing n with
  | nil => simp [freeCells] at h
  | cons a as ih =>
    rw [freeCells] at h
    split at h
    · rcases List.mem_cons.1 h with rfl | h
      · exact ⟨by simp, by assumption⟩
      · exact ⟨by simp [(ih h).1], (ih h).2⟩
    · exact ⟨by simp [(ih h).1], (ih h).2⟩

/-- An abandoned cell is at an address of the write set. -/
theorem mem_abandonCells {m : Memory} {n : Nat} {cs : List Host.Cell} {c : Host.Cell}
    (h : c ∈ abandonCells m n cs) : c.1 ∈ cs.map Prod.fst := by
  induction cs generalizing n with
  | nil => simp [abandonCells] at h
  | cons d cs ih =>
    obtain ⟨a, v⟩ := d
    rw [abandonCells] at h
    rcases List.mem_cons.1 h with rfl | h
    · simp
    · simp only [List.map_cons, List.mem_cons]
      exact .inr (ih h)

/-- A byte outside the write set is unchanged, whichever way the command ends (R106). -/
theorem complete_frame_mem {p : Plan} {s : State} {a : Nat} (h : a ∉ p.writeSet) :
    (complete p s).mem.read a = s.mem.read a := by
  rcases complete_cases p s with ⟨-, e⟩ | ⟨f, -, e⟩
  · rw [e]
    exact Memory.read_writeAll_other fun c hc he => h (List.mem_map.2 ⟨c, hc, he⟩)
  · rw [e]
    exact Memory.read_writeAll_other fun c hc he => h (he ▸ (mem_freeCells hc).1)

/-- A byte outside the write set is unchanged when reset abandons the command (R171). -/
theorem abandon_frame_mem {p : Plan} {s : State} {a : Nat} (h : a ∉ p.writeSet) :
    (abandon p s).mem.read a = s.mem.read a := by
  unfold abandon
  split
  · exact Memory.read_writeAll_other fun c hc he => h (he ▸ (mem_freeCells hc).1)
  · exact Memory.read_writeAll_other fun c hc he => h (he ▸ mem_abandonCells hc)

/-- The fields no command changes. -/
theorem complete_frame (p : Plan) (s : State) :
    (complete p s).rom = s.rom ∧ (complete p s).readOK = s.readOK ∧ (complete p s).writeOK = s.writeOK ∧
      (complete p s).host = s.host ∧ (complete p s).resetLanded = s.resetLanded := by
  rcases complete_cases p s with ⟨-, e⟩ | ⟨f, -, e⟩ <;> rw [e] <;> exact ⟨rfl, rfl, rfl, rfl, rfl⟩

/-- A command keeps memory canonical, whichever way it ends. -/
theorem complete_wf {p : Plan} {s : State} (hm : s.mem.wf = true) : (complete p s).mem.wf = true := by
  rcases complete_cases p s with ⟨hn, e⟩ | ⟨f, -, e⟩
  · rw [e]
    refine Memory.wf_writeAll hm fun c hc => State.lt_of_writable (s := s) ?_
    exact (Plan.contractFault_eq_none.1 hn).2.1 _ (List.mem_map.2 ⟨c, hc, rfl⟩)
  · rw [e]
    exact Memory.wf_writeAll hm fun c hc => (mem_freeCells hc).2

/-- Abandoning a command keeps memory canonical. -/
theorem abandon_wf {p : Plan} {s : State} (hm : s.mem.wf = true) : (abandon p s).mem.wf = true := by
  unfold abandon
  split
  · exact Memory.wf_writeAll hm fun c hc => (mem_freeCells hc).2
  · rename_i hn
    refine Memory.wf_writeAll hm fun c hc => State.lt_of_writable (s := s) ?_
    exact (Plan.contractFault_eq_none.1 hn).2.1 _ (mem_abandonCells hc)

/-- Every byte of a command that kept its contract reads as written, when its addresses are distinct. -/
theorem complete_read_written {p : Plan} {s : State} {a : Nat} {v : Byte} (hm : s.mem.wf = true)
    (hn : p.contractFault s = none) (hd : p.writeSet.Nodup) (h : (a, v) ∈ p.writes) :
    (complete p s).mem.read a = v := by
  rw [complete_of_none hn]
  refine Memory.read_writeAll_mem hm (fun c hc => State.lt_of_writable (s := s) ?_) hd h
  exact (Plan.contractFault_eq_none.1 hn).2.1 _ (List.mem_map.2 ⟨c, hc, rfl⟩)

/-- Every command's meaning is its plan, completed (R47). -/
theorem exec_eq_complete (i : Instr) (s : State) : exec i s = .next (complete (planOf i s) s) := by
  cases i <;> rfl

/-- Running any message is completing its plan: every CMD word has a meaning (R166). -/
theorem runCommand_eq_complete (c : Command) (s : State) :
    runCommand c s = .next (complete (planCommand c s) s) := by
  unfold runCommand planCommand
  cases decode c with
  | none => rfl
  | some i => exact exec_eq_complete i s

end Sys2Proof.Machine
end

