-- ==== Sys2Proof/Laws/Bpk.lean ====
section
/-! SUPPORT. The read sets, write sets and contents of the BPK and RLR plans. -/

namespace Sys2Proof.Machine

theorem mem_packedAddrs {src nb : Word32} {a : Nat} :
    a ∈ packedAddrs src nb ↔ ∃ j < ceilDiv nb.toNat 8, a = packedAddr src j := by
  simp [packedAddrs, eq_comm]

theorem mem_packAddrs {src idx nb : Word32} {a : Nat} :
    a ∈ packAddrs src idx nb ↔ ∃ k < min nb.toNat 8, a = entryAddr src idx k := by
  simp [packAddrs, eq_comm]

/-- The write set of a list of cells made from a range of offsets. -/
theorem map_fst_range (n : Nat) (f : Nat → Nat) (g : Nat → Byte) :
    ((List.range n).map fun k => (f k, g k)).map Prod.fst = (List.range n).map f := by
  simp [Function.comp_def]

/-- The write set of BPK.UNPACK_BYTE (R59). -/
theorem unpackByte_writeSet (dest idx : Word32) (v : Byte) :
    (planBpkUnpackByte dest idx v).writeSet = (List.range 8).map (entryAddr dest idx) := map_fst_range _ _ _

/-- The write set of BPK.UNPACK_BYTES (R59). -/
theorem unpackBytes_writeSet (dest idx nb src : Word32) (s : State) :
    (planBpkUnpackBytes dest idx nb src s).writeSet = (List.range nb.toNat).map (entryAddr dest idx) :=
  map_fst_range _ _ _

/-- The entries of a span are distinct bytes. -/
theorem nodup_entries (base idx : Word32) (n : Nat) : ((List.range n).map (entryAddr base idx)).Nodup :=
  List.nodup_range.map fun _ _ => entryAddr_inj.1

/-- The write set of every command is free of repeats. -/
theorem planOf_writeSet_nodup (i : Instr) (s : State) : (planOf i s).writeSet.Nodup := by
  cases i
  case bpkUnpackByte => exact unpackByte_writeSet .. ▸ nodup_entries _ _ _
  case bpkUnpackBytes => exact unpackBytes_writeSet .. ▸ nodup_entries _ _ _
  all_goals exact List.nodup_nil

/-- Lane `k` of the byte BPK.PACK_BYTE packs (R103). -/
theorem getLsbD_packedByte (m : Memory) (src idx nb : Word32) {k : Nat} (hk : k < 8) :
    (packedByte m src idx nb).getLsbD k =
      (decide (k < nb.toNat) && bitOfEntry (m.read (entryAddr src idx k))) := by
  rw [packedByte, getLsbD_packBits _ _ hk]
  by_cases h : k < nb.toNat
  · simp [packAddrs, hk, h]
  · simp [packAddrs, h]

/-- The bits of a read set chosen by its class (R87). -/
theorem mem_quantityAddrs {cls : LengthClass} {p : Word32} {a : Nat} :
    a ∈ quantityAddrs cls p ↔ (cls = .bits ∨ cls = .regs) ∧ (a = payloadAddr p 2 ∨ a = payloadAddr p 3) := by
  cases cls <;> simp [quantityAddrs, LengthClass.readsQuantity]

end Sys2Proof.Machine
end

