-- ==== Sys2Proof/Laws/Decode.lean ====
section
/-! SUPPORT. The fields of messages: a command word is its reserved bits and its low byte, and a narrow operand
survives being zero-extended into an operand word. -/

namespace Sys2Proof

/-- A command word is RSVD above the byte the decoder reads (R62, R67). -/
theorem Command.cmd_eq_append (c : Command) : c.cmd = (c.rsvd ++ c.low : BitVec (24 + 8)) := by
  refine BitVec.eq_of_getLsbD_eq fun i hi => ?_
  simp only [Command.rsvd, Command.low, BitVec.getLsbD_append, BitVec.getLsbD_extractLsb']
  by_cases h : i < 8
  · simp [h]
  · have h8 : 8 + (i - 8) = i := by omega
    simp [h, h8]
    omega

/-- The fields of a command word made from its fields (R62). -/
theorem cmdWord_fields (unit ord : BitVec 2) (sub : BitVec 4) :
    (cmdWord unit ord sub).extractLsb' 8 24 = 0 ∧ (cmdWord unit ord sub).extractLsb' 6 2 = unit ∧
      (cmdWord unit ord sub).extractLsb' 4 2 = ord ∧ (cmdWord unit ord sub).extractLsb' 0 4 = sub := by
  revert unit ord sub
  decide

@[simp] theorem rsvd_cmdWord (u o : BitVec 2) (b : BitVec 4) (w x y z : Word32) :
    Command.rsvd { cmd := cmdWord u o b, opa := w, opb := x, opc := y, opd := z } = 0 := (cmdWord_fields u o b).1

@[simp] theorem unit_cmdWord (u o : BitVec 2) (b : BitVec 4) (w x y z : Word32) :
    Command.unit { cmd := cmdWord u o b, opa := w, opb := x, opc := y, opd := z } = u := (cmdWord_fields u o b).2.1

@[simp] theorem ord_cmdWord (u o : BitVec 2) (b : BitVec 4) (w x y z : Word32) :
    Command.ord { cmd := cmdWord u o b, opa := w, opb := x, opc := y, opd := z } = o := (cmdWord_fields u o b).2.2.1

@[simp] theorem sub_cmdWord (u o : BitVec 2) (b : BitVec 4) (w x y z : Word32) :
    Command.sub { cmd := cmdWord u o b, opa := w, opb := x, opc := y, opd := z } = b := (cmdWord_fields u o b).2.2.2

@[simp] theorem word16Of_zext32 (w : Word16) : word16Of (zext32 w) = w := by
  refine BitVec.eq_of_getLsbD_eq fun i hi => ?_
  simp [word16Of, zext32, hi]
  omega

@[simp] theorem byteOf_zext32 (b : Byte) : byteOf (zext32 b) = b := by
  refine BitVec.eq_of_getLsbD_eq fun i hi => ?_
  simp [byteOf, zext32, hi]
  omega

@[simp] theorem aboveWord16_zext32 (w : Word16) : aboveWord16 (zext32 w) = 0 := by
  refine BitVec.eq_of_getLsbD_eq fun i hi => ?_
  simp [aboveWord16, zext32]

@[simp] theorem aboveByte_zext32 (b : Byte) : aboveByte (zext32 b) = 0 := by
  refine BitVec.eq_of_getLsbD_eq fun i hi => ?_
  simp [aboveByte, zext32]

/-- An operand word with 0 above its lower half is that half, zero-extended. -/
theorem zext32_word16Of {w : Word32} (h : aboveWord16 w = 0) : zext32 (word16Of w) = w := by
  refine BitVec.eq_of_getLsbD_eq fun i hi => ?_
  by_cases hl : i < 16
  · simp [word16Of, zext32, hl, hi]
  · have := congrArg (fun v => BitVec.getLsbD v (i - 16)) h
    have h16 : 16 + (i - 16) = i := by omega
    simp [aboveWord16, h16] at this
    simp [word16Of, zext32, hl]
    rw [this (by omega)]

/-- An operand word with 0 above its low byte is that byte, zero-extended. -/
theorem zext32_byteOf {w : Word32} (h : aboveByte w = 0) : zext32 (byteOf w) = w := by
  refine BitVec.eq_of_getLsbD_eq fun i hi => ?_
  by_cases hl : i < 8
  · simp [byteOf, zext32, hl, hi]
  · have := congrArg (fun v => BitVec.getLsbD v (i - 8)) h
    have h8 : 8 + (i - 8) = i := by omega
    simp [aboveByte, h8] at this
    simp [byteOf, zext32, hl]
    rw [this (by omega)]

end Sys2Proof
end

