-- ==== Sys2Proof/Laws/Fwr.lean ====
section
/-! SUPPORT. The bytes of words and patterns: taking a byte of a concatenation, and putting the bytes together again. -/

namespace Sys2Proof.Machine

@[simp] theorem hiByte_append (a b : Byte) : hiByte (a ++ b : BitVec (8 + 8)) = a := by
  refine BitVec.eq_of_getLsbD_eq fun i hi => ?_
  have h8 : ¬ 8 + i < 8 := by omega
  simp only [hiByte, BitVec.getLsbD_extractLsb', BitVec.getLsbD_append, hi, decide_true, Bool.true_and, h8]
  simp

@[simp] theorem loByte_append (a b : Byte) : loByte (a ++ b : BitVec (8 + 8)) = b := by
  refine BitVec.eq_of_getLsbD_eq fun i hi => ?_
  simp only [loByte, BitVec.getLsbD_extractLsb', BitVec.getLsbD_append]
  simp [hi]

/-- Bit `i` of two bytes put together. -/
theorem getLsbD_append_bytes (a b : Byte) (i : Nat) :
    BitVec.getLsbD (a ++ b : BitVec (8 + 8)) i = if i < 8 then b.getLsbD i else a.getLsbD (i - 8) := by
  rw [BitVec.getLsbD_append]

/-- A register word is its high byte and its low byte (R121). -/
theorem append_hiByte_loByte (w : Word16) : (hiByte w ++ loByte w : BitVec (8 + 8)) = w := by
  refine BitVec.eq_of_getLsbD_eq fun i hi => ?_
  rw [getLsbD_append_bytes]
  split
  · simp [loByte, *]
  · have h8 : 8 + (i - 8) = i := by omega
    have hl : i - 8 < 8 := by omega
    simp [hiByte, h8, hl]

/-- The upper half of a pattern is its bytes A and B (R120). -/
theorem upperHalf_eq (v : Word32) : v.extractLsb' 16 16 = (byteK 3 v ++ byteK 2 v : BitVec (8 + 8)) := by
  refine BitVec.eq_of_getLsbD_eq fun i hi => ?_
  rw [getLsbD_append_bytes]
  split
  · simp [byteK, *]
  · have h8 : 24 + (i - 8) = 16 + i := by omega
    have hl : i - 8 < 8 := by omega
    simp [byteK, hi, h8, hl]

/-- The lower half of a pattern is its bytes C and D (R120). -/
theorem lowerHalf_eq (v : Word32) : v.extractLsb' 0 16 = (byteK 1 v ++ byteK 0 v : BitVec (8 + 8)) := by
  refine BitVec.eq_of_getLsbD_eq fun i hi => ?_
  rw [getLsbD_append_bytes]
  split
  · simp [byteK, *]
  · have h8 : 8 + (i - 8) = i := by omega
    have hl : i - 8 < 8 := by omega
    simp [byteK, hi, h8, hl]

/-- The halves of a pattern put together from two words. -/
theorem halves_append (w0 w1 : Word16) :
    (w0 ++ w1 : BitVec (16 + 16)).extractLsb' 16 16 = w0 ∧ (w0 ++ w1 : BitVec (16 + 16)).extractLsb' 0 16 = w1 := by
  constructor <;> refine BitVec.eq_of_getLsbD_eq fun i hi => ?_ <;>
    rw [BitVec.getLsbD_extractLsb', BitVec.getLsbD_append]
  · have h16 : ¬ 16 + i < 16 := by omega
    have hs : 16 + i - 16 = i := by omega
    simp [hi, hs]
  · simp [hi]

/-- A pattern is its two halves (R123). -/
theorem append_halves (v : Word32) : (v.extractLsb' 16 16 ++ v.extractLsb' 0 16 : BitVec (16 + 16)) = v := by
  refine BitVec.eq_of_getLsbD_eq fun i hi => ?_
  rw [BitVec.getLsbD_append]
  split
  · simp [*]
  · have h16 : 16 + (i - 16) = i := by omega
    have hl : i - 16 < 16 := by omega
    simp [h16, hl]

/-- Four bytes in a row are two words in a row. -/
theorem append_four (a b c d : Byte) :
    (a ++ b ++ c ++ d : BitVec (8 + 8 + 8 + 8)) = ((a ++ b : BitVec (8 + 8)) ++ (c ++ d : BitVec (8 + 8)) : BitVec (16 + 16)) := by
  refine BitVec.eq_of_getLsbD_eq fun i hi => ?_
  rw [BitVec.getLsbD_append, BitVec.getLsbD_append, BitVec.getLsbD_append, BitVec.getLsbD_append,
    getLsbD_append_bytes, getLsbD_append_bytes]
  have h1 : i - 8 - 8 = i - 16 := by omega
  rw [h1]
  split_ifs <;> first | rfl | omega

end Sys2Proof.Machine
end

