-- ==== Sys2Proof/Laws/PerInstr.lean ====
section
/-! SUPPORT. The families of statements made per instruction. EncodedForm: what the encoder writes is a well-formed
message whose command word is the opcode table's. -/

namespace Sys2Proof.Laws.EncodedForm

/-- The opcode table's command word of each instruction (R67). -/
def tableWord : Instr → Word32
  | .fwrDecAbcd _ _ => 0x00000040
  | .fwrDecDcba _ _ => 0x00000050
  | .fwrDecBadc _ _ => 0x00000060
  | .fwrDecCdab _ _ => 0x00000070
  | .fwrEncAbcd _ => 0x00000041
  | .fwrEncDcba _ => 0x00000051
  | .fwrEncBadc _ => 0x00000061
  | .fwrEncCdab _ => 0x00000071
  | .bpkUnpackByte _ _ _ => 0x00000080
  | .bpkUnpackBytes _ _ _ _ => 0x00000081
  | .bpkPackByte _ _ _ => 0x00000082
  | .rlrLookup _ _ => 0x000000C0

/-- The encoder writes the table's command word and 0 in every ignored operand bit (R67, R73). -/
def Statement (i : Instr) : Prop := (encode i).cmd = tableWord i ∧ (encode i).wellFormed = true

theorem fwrDecAbcd (w0 w1 : Word16) : Statement (.fwrDecAbcd w0 w1) :=
  ⟨rfl, by simp [Command.wellFormed, Command.legal, Command.ignoredZero, encode, encodeFwrDec]⟩

theorem fwrDecDcba (w0 w1 : Word16) : Statement (.fwrDecDcba w0 w1) :=
  ⟨rfl, by simp [Command.wellFormed, Command.legal, Command.ignoredZero, encode, encodeFwrDec]⟩

theorem fwrDecBadc (w0 w1 : Word16) : Statement (.fwrDecBadc w0 w1) :=
  ⟨rfl, by simp [Command.wellFormed, Command.legal, Command.ignoredZero, encode, encodeFwrDec]⟩

theorem fwrDecCdab (w0 w1 : Word16) : Statement (.fwrDecCdab w0 w1) :=
  ⟨rfl, by simp [Command.wellFormed, Command.legal, Command.ignoredZero, encode, encodeFwrDec]⟩

theorem fwrEncAbcd (v : Word32) : Statement (.fwrEncAbcd v) :=
  ⟨rfl, by simp [Command.wellFormed, Command.legal, Command.ignoredZero, encode, encodeFwrEnc]⟩

theorem fwrEncDcba (v : Word32) : Statement (.fwrEncDcba v) :=
  ⟨rfl, by simp [Command.wellFormed, Command.legal, Command.ignoredZero, encode, encodeFwrEnc]⟩

theorem fwrEncBadc (v : Word32) : Statement (.fwrEncBadc v) :=
  ⟨rfl, by simp [Command.wellFormed, Command.legal, Command.ignoredZero, encode, encodeFwrEnc]⟩

theorem fwrEncCdab (v : Word32) : Statement (.fwrEncCdab v) :=
  ⟨rfl, by simp [Command.wellFormed, Command.legal, Command.ignoredZero, encode, encodeFwrEnc]⟩

theorem bpkUnpackByte (dest idx : Word32) (value : Byte) : Statement (.bpkUnpackByte dest idx value) :=
  ⟨rfl, by simp [Command.wellFormed, Command.legal, Command.ignoredZero, encode]⟩

theorem bpkUnpackBytes (dest idx nbBits src : Word32) : Statement (.bpkUnpackBytes dest idx nbBits src) :=
  ⟨rfl, by simp [Command.wellFormed, Command.legal, Command.ignoredZero, encode]⟩

theorem bpkPackByte (src idx nbBits : Word32) : Statement (.bpkPackByte src idx nbBits) :=
  ⟨rfl, by simp [Command.wellFormed, Command.legal, Command.ignoredZero, encode]⟩

theorem rlrLookup (fc : Byte) (payload : Word32) : Statement (.rlrLookup fc payload) :=
  ⟨rfl, by simp [Command.wellFormed, Command.legal, Command.ignoredZero, encode]⟩

end Sys2Proof.Laws.EncodedForm
end

