-- ==== Sys2Proof/Laws/Step.lean ====
section
/-! SUPPORT. What a step can do: its inversion, that a plan depends on the ROM and on the bytes it reads alone, and the
cells a contract fault and an abandoned command leave. -/

namespace Sys2Proof.Machine

/-- Everything a step that goes on can have done: the command in flight ran, nothing was there to do, or one host
move landed. -/
theorem step_cases {s t : State} (h : step s = .next t) :
    (∃ c, s.port = .busy c ∧ t = complete (planCommand c s) s) ∨
    (s.host = [] ∧ t = s ∧ s.port = .ready) ∨
    (∃ c q, s.host = .present c :: q ∧ s.port = .ready ∧ t = ({s with host := q} : State).accept c) ∨
    (∃ q, s.host = .awaitResponse :: q ∧ s.port = .ready ∧ t = {s with host := q}) ∨
    (∃ q r, s.host = .readResponse :: q ∧ s.response = some r ∧ t = {s with host := q}) ∨
    (∃ a v q, s.host = .write a v :: q ∧ t = {s with mem := s.mem.write a.toNat v, host := q} ∧
      ∀ c, s.port = .busy c → a.toNat ∉ (planCommand c s).reads ∧ a.toNat ∉ (planCommand c s).writeSet) ∨
    (∃ a q, s.host = .read a :: q ∧ t = {s with host := q}) ∨
    (∃ q, s.host = .reset :: q ∧ t = ({s with host := q} : State).takeReset) := by
  unfold step State.stepOnce at h
  split at h
  · rename_i hh
    unfold State.advance at h
    split at h
    · rename_i hp; injection h with h; exact .inr (.inl ⟨hh, h.symm, hp⟩)
    · rename_i c hp; rw [runCommand_eq_complete] at h; injection h with h; exact .inl ⟨c, hp, h.symm⟩
    · cases h
  · rename_i c q hh
    unfold State.hostPresent at h
    split at h
    · rename_i hp; injection h with h; exact .inr (.inr (.inl ⟨c, q, hh, hp, h.symm⟩))
    · rename_i c hp
      simp only [State.advance, hp, runCommand_eq_complete] at h
      injection h with h
      exact .inl ⟨c, hp, h.symm⟩
    · rename_i f hp; simp only [State.advance, hp] at h; cases h
  · rename_i q hh
    unfold State.hostAwait at h
    split at h
    · rename_i hp; injection h with h; exact .inr (.inr (.inr (.inl ⟨q, hh, hp, h.symm⟩)))
    · rename_i c hp
      simp only [State.advance, hp, runCommand_eq_complete] at h
      injection h with h
      exact .inl ⟨c, hp, h.symm⟩
    · rename_i f hp; simp only [State.advance, hp] at h; cases h
  · rename_i q hh
    unfold State.hostReadResponse State.lastResponse at h
    cases hr : s.response with
    | none => rw [hr] at h; cases h
    | some r => rw [hr] at h; injection h with h; exact .inr (.inr (.inr (.inr (.inl ⟨q, r, hh, rfl, h.symm⟩))))
  · rename_i a v q hh
    refine .inr (.inr (.inr (.inr (.inr (.inl ⟨a, v, q, hh, ?_⟩)))))
    unfold State.hostWrite at h
    split at h
    · rename_i hp; injection h with h; exact ⟨h.symm, fun c hc => by rw [hp] at hc; cases hc⟩
    · rename_i c hp
      split at h
      · cases h
      · rename_i hn; injection h with h; refine ⟨h.symm, fun c' hc => ?_⟩
        rw [hp] at hc; cases hc; exact not_or.1 hn
    · cases h
  · rename_i a q hh
    refine .inr (.inr (.inr (.inr (.inr (.inr (.inl ⟨a, q, hh, ?_⟩))))))
    unfold State.hostRead at h
    split at h
    · injection h with h; exact h.symm
    · split at h
      · cases h
      · injection h with h; exact h.symm
    · cases h
  · rename_i q hh
    injection h with h
    exact .inr (.inr (.inr (.inr (.inr (.inr (.inr ⟨q, hh, h.symm⟩))))))

/-- The write set of any message is free of repeats. -/
theorem planCommand_writeSet_nodup (c : Command) (s : State) : (planCommand c s).writeSet.Nodup := by
  unfold planCommand
  split
  · exact planOf_writeSet_nodup _ _
  · exact List.nodup_nil

/-- A command's plan depends on the ROM and on the bytes of its read set alone (R3). -/
theorem planOf_congr (i : Instr) {s t : State} (hr : s.rom = t.rom)
    (hm : ∀ a ∈ (planOf i s).reads, s.mem.read a = t.mem.read a) : planOf i s = planOf i t := by
  cases i <;> try rfl
  case bpkUnpackBytes dest idx nb src =>
    simp only [planOf, planBpkUnpackBytes, Plan.mk.injEq, true_and, and_true]
    refine List.map_congr_left fun k hk => ?_
    rw [hm]
    exact mem_packedAddrs.2 ⟨k / 8, div_lt_ceilDiv (by simpa using hk), rfl⟩
  case bpkPackByte src idx nb =>
    simp only [planOf, planBpkPackByte, Plan.mk.injEq, true_and, and_true, packedByte, Response.mk.injEq]
    congr 2
    exact List.map_congr_left fun a ha => by rw [hm a ha]
  case rlrLookup fc p =>
    simp only [planOf, planRlrLookup] at hm
    simp only [planOf, planRlrLookup, Plan.mk.injEq, true_and, hr]
    cases e : t.rom.entry fc <;> simp [LengthClass.length]
    all_goals
      rw [hr, e] at hm
      simp [quantityAddrs, LengthClass.readsQuantity] at hm
      simp [payloadQuantity, hm]

/-- The same for any message. -/
theorem planCommand_congr (c : Command) {s t : State} (hr : s.rom = t.rom)
    (hm : ∀ a ∈ (planCommand c s).reads, s.mem.read a = t.mem.read a) : planCommand c s = planCommand c t := by
  cases hd : decode c with
  | none => simp only [planCommand, hd]
  | some i =>
    simp only [planCommand, hd] at hm ⊢
    exact planOf_congr i hr hm

/-- Address `k` of a write set, inside the space, gets draw `n + k`. -/
theorem getElem_freeCells {n k a : Nat} {as : List Nat} (h : as[k]? = some a) (ha : a < addrSpace) :
    (a, Config.freeByte (n + k)) ∈ freeCells n as := by
  induction as generalizing n k with
  | nil => simp at h
  | cons b as ih =>
    rw [freeCells]
    cases k with
    | zero =>
      simp at h
      subst h
      rw [if_pos ha]
      simp
    | succ k =>
      have := ih (n := n + 1) (k := k) (by simpa using h)
      rw [show n + 1 + k = n + (k + 1) by omega] at this
      split <;> simp [this]

/-- Distinct addresses get distinct cells. -/
theorem nodup_freeCells {n : Nat} {as : List Nat} (h : as.Nodup) : ((freeCells n as).map Prod.fst).Nodup := by
  induction as generalizing n with
  | nil => simp [freeCells]
  | cons b as ih =>
    rw [List.nodup_cons] at h
    rw [freeCells]
    split
    · rw [List.map_cons, List.nodup_cons]
      refine ⟨fun hm => ?_, ih h.2⟩
      obtain ⟨c, hc, e⟩ := List.mem_map.1 hm
      simp only at e
      exact h.1 (e ▸ (mem_freeCells hc).1)
    · exact ih h.2

/-- Cell `k` of an abandoned command is old or new by choice `n + k`. -/
theorem getElem_abandonCells {m : Memory} {n k a : Nat} {v : Byte} {cs : List Host.Cell} (h : cs[k]? = some (a, v)) :
    (a, if Config.freeChoice (n + k) then v else m.read a) ∈ abandonCells m n cs := by
  induction cs generalizing n k with
  | nil => simp at h
  | cons b cs ih =>
    obtain ⟨x, w⟩ := b
    rw [abandonCells]
    cases k with
    | zero =>
      simp at h
      obtain ⟨rfl, rfl⟩ := h
      simp
    | succ k =>
      have := ih (n := n + 1) (k := k) (by simpa using h)
      rw [show n + 1 + k = n + (k + 1) by omega] at this
      exact List.mem_cons_of_mem _ this

/-- Abandoning a command touches the addresses it would have written, in order. -/
theorem map_fst_abandonCells (m : Memory) (n : Nat) (cs : List Host.Cell) :
    (abandonCells m n cs).map Prod.fst = cs.map Prod.fst := by
  induction cs generalizing n with
  | nil => rfl
  | cons b cs ih =>
    obtain ⟨x, w⟩ := b
    simp [abandonCells, ih]

end Sys2Proof.Machine
end

