-- ==== Sys2Proof/Tests/Slice0.lean ====
section
/-! SUPPORT. The model's own tests. Expected results are from spec/95_test_vectors.md, from the rules named, or worked
out by hand from the encoding of R62 to R66. The witnesses of the obligations' hypotheses come last. -/

namespace Sys2Proof.Tests

open Sys2Proof.Machine Sys2Proof.Claims

/-- Whether the outcome is a next state with the property. -/
def goesOn (o : Host.Outcome State Fault Refusal) (p : State → Bool) : Bool :=
  match o with
  | .next t => p t
  | .fault _ => false
  | .refused _ => false

/-- Whether the outcome is this fault. -/
def faults (o : Host.Outcome State Fault Refusal) (f : Fault) : Bool :=
  match o with
  | .next _ => false
  | .fault g => g == f
  | .refused _ => false

/-- Whether the outcome is this refusal. -/
def refuses (o : Host.Outcome State Fault Refusal) (r : Refusal) : Bool :=
  match o with
  | .next _ => false
  | .fault _ => false
  | .refused q => q == r

/-- After reset, with this memory. -/
def holding (m : Memory) : State := { State.reset with mem := m }

/-- After reset, with no byte admitted. -/
def barred : State := { State.reset with readOK := [], writeOK := [] }

/-- Whether the command, in flight in the state, ends in one step with the response and the property, the
host still waiting. -/
def answers (s : State) (c : Command) (r : Response) (p : State → Bool) : Bool :=
  goesOn (step (s.placeInFlight c)) fun t => t.response == some r && t.port == .ready && t.host == .awaitResponse :: s.host && p t

/-- Whether the command, in flight in the state, ends in the contract fault. -/
def breaks (s : State) (c : Command) (f : ContractFault) : Bool :=
  goesOn (step (s.placeInFlight c)) fun t => t.port == .lost f && t.response == none && t.contractFaults == [f]

/-- The bytes at consecutive addresses. -/
def bytes (m : Memory) (a n : Nat) : List Byte := (List.range n).map fun k => m.read (a + k)

/-! ### Well-formed messages: one ill-formed message for each check, refused -/

theorem test_wellFormed_accepts :
    [Command.mk 0x40 0xFFFF 0xFFFF 0 0, ⟨0x71, 0xFFFFFFFF, 0, 0, 0⟩, ⟨0x80, 1, 2, 0xFF, 0⟩, ⟨0x81, 1, 2, 3, 4⟩,
      ⟨0x82, 1, 2, 3, 0⟩, ⟨0xC0, 0xFF, 0xFFFFFFFF, 0, 0⟩].all Command.wellFormed = true := by decide

theorem test_wellFormed_rsvd : (Command.mk 0x140 0 0 0 0).wellFormed = false := by decide
theorem test_wellFormed_unit : (Command.mk 0x00 0 0 0 0).wellFormed = false := by decide
theorem test_wellFormed_fwr_sub : (Command.mk 0x42 0 0 0 0).wellFormed = false := by decide
theorem test_wellFormed_bpk_ord : (Command.mk 0x90 0 0 0 0).wellFormed = false := by decide
theorem test_wellFormed_bpk_sub : (Command.mk 0x83 0 0 0 0).wellFormed = false := by decide
theorem test_wellFormed_rlr_ord : (Command.mk 0xD0 0 0 0 0).wellFormed = false := by decide
theorem test_wellFormed_rlr_sub : (Command.mk 0xC1 0 0 0 0).wellFormed = false := by decide

theorem test_wellFormed_dec_ignored :
    [Command.mk 0x40 0x10000 0 0 0, ⟨0x40, 0, 0x10000, 0, 0⟩, ⟨0x40, 0, 0, 1, 0⟩, ⟨0x40, 0, 0, 0, 1⟩].any
      Command.wellFormed = false := by decide

theorem test_wellFormed_enc_ignored :
    [Command.mk 0x41 0 1 0 0, ⟨0x41, 0, 0, 1, 0⟩, ⟨0x41, 0, 0, 0, 1⟩].any Command.wellFormed = false := by decide

theorem test_wellFormed_bpk_ignored :
    [Command.mk 0x80 0 0 0x100 0, ⟨0x80, 0, 0, 0, 1⟩, ⟨0x82, 0, 0, 0, 1⟩].any Command.wellFormed = false := by decide

theorem test_wellFormed_rlr_ignored :
    [Command.mk 0xC0 0x100 0 0 0, ⟨0xC0, 0, 0, 1, 0⟩, ⟨0xC0, 0, 0, 0, 1⟩].any Command.wellFormed = false := by decide

/-! ### Decoding: the command word of every constructor, bit by bit RSVD UNIT ORD SUB (R62 to R66) -/

theorem test_decode_fwr_dec :
    [0b000000000000000000000000_01_00_0000#32, 0b000000000000000000000000_01_01_0000#32,
      0b000000000000000000000000_01_10_0000#32, 0b000000000000000000000000_01_11_0000#32].map
        (fun cmd => decode ⟨cmd, 0xDEAD3F80, 0xBEEF1234, 7, 9⟩) =
      [some (.fwrDecAbcd 0x3F80 0x1234), some (.fwrDecDcba 0x3F80 0x1234), some (.fwrDecBadc 0x3F80 0x1234),
        some (.fwrDecCdab 0x3F80 0x1234)] := by decide

theorem test_decode_fwr_enc :
    [0b000000000000000000000000_01_00_0001#32, 0b000000000000000000000000_01_01_0001#32,
      0b000000000000000000000000_01_10_0001#32, 0b000000000000000000000000_01_11_0001#32].map
        (fun cmd => decode ⟨cmd, 0x3F801234, 5, 7, 9⟩) =
      [some (.fwrEncAbcd 0x3F801234), some (.fwrEncDcba 0x3F801234), some (.fwrEncBadc 0x3F801234),
        some (.fwrEncCdab 0x3F801234)] := by decide

theorem test_decode_bpk :
    [0b000000000000000000000000_10_00_0000#32, 0b000000000000000000000000_10_00_0001#32,
      0b000000000000000000000000_10_00_0010#32].map (fun cmd => decode ⟨cmd, 0x4000, 5, 0x1B2, 0x5000⟩) =
      [some (.bpkUnpackByte 0x4000 5 0xB2), some (.bpkUnpackBytes 0x4000 5 0x1B2 0x5000),
        some (.bpkPackByte 0x4000 5 0x1B2)] := by decide

theorem test_decode_rlr :
    decode ⟨0b000000000000000000000000_11_00_0000#32, 0xFFFFFF03, 0x1001, 7, 9⟩ = some (.rlrLookup 0x03 0x1001) := by
  decide

/-- The illegal CMD values of 95_test_vectors.md section 2.4. -/
theorem test_decode_illegal :
    [0x00000000#32, 0x00000001#32, 0x00000042#32, 0x00000043#32, 0x00000083#32, 0x0000008F#32, 0x00000090#32,
      0x000000C1#32, 0x000000D0#32, 0x000000F0#32, 0x00000100#32, 0x00000140#32, 0x80000040#32].all
        (fun cmd => decode ⟨cmd, 1, 2, 3, 4⟩ == none) = true := by decide

/-- A message laid out as one number, CMD lowest (R60). -/
theorem test_table_word :
    decodeTableWord 160 0x00005000_0000000D_00000000_00003000_00000081 = some (.bpkUnpackBytes 0x3000 0 13 0x5000) := by
  decide

/-! ### The assembler and the listing (95_test_vectors.md section 3) -/

theorem test_assemble_program_lines :
    assemble "BPK.UNPACK_BYTES 0x3000, 0, 13, 0x2000".toList = some ⟨0x81, 0x3000, 0, 13, 0x2000⟩ ∧
      assemble "bpk.pack8 0x3000, 16 ; repack".toList = some ⟨0x82, 0x3000, 16, 8, 0⟩ ∧
      assemble "FWR.DEC.CDAB 0x0FD0, 0x4049".toList = some ⟨0x70, 0x0FD0, 0x4049, 0, 0⟩ ∧
      assemble "RLR.LOOKUP 0x01, 0x1001".toList = some ⟨0xC0, 1, 0x1001, 0, 0⟩ := by decide

/-- R73's refusals; the empty line, which writes no instruction, is the model's choice (log entry 15). -/
theorem test_assemble_refuses :
    ["FWR.DEC.ABCD 0x10000, 0", "BPK.UNPACK_BYTE 0, 0, 256", "RLR.LOOKUP 1", "FWR.NOP 1", ""].all
      (fun line => assemble line.toList == none) = true := by decide

theorem test_listing :
    listing ⟨0xC0, 1, 0x1001, 0, 0⟩ = "000000C0 00000001 00001001 00000000 00000000".toList := by decide

/-! ### FWR (95_test_vectors.md sections 1.7, 2.3 and 3.2) -/

theorem test_fwrDecAbcd : answers State.reset ⟨0x40, 0xDEAD3F80, 0xBEEF0000, 0, 0⟩ ⟨0x00, 0x3F800000, 0⟩
    (fun _ => true) = true := by decide
theorem test_fwrDecDcba : answers State.reset ⟨0x50, 0x1122, 0x3344, 0, 0⟩ ⟨0x00, 0x44332211, 0⟩
    (fun _ => true) = true := by decide
theorem test_fwrDecBadc : answers State.reset ⟨0x60, 0x1122, 0x3344, 0, 0⟩ ⟨0x00, 0x22114433, 0⟩
    (fun _ => true) = true := by decide
theorem test_fwrDecCdab : answers State.reset ⟨0x70, 0x0FD0, 0x4049, 0, 0⟩ ⟨0x00, 0x40490FD0, 0⟩
    (fun _ => true) = true := by decide
theorem test_fwrEncAbcd : answers State.reset ⟨0x41, 0x11223344, 0xFFFFFFFF, 1, 2⟩ ⟨0x00, 0x1122, 0x3344⟩
    (fun _ => true) = true := by decide
theorem test_fwrEncDcba : answers State.reset ⟨0x51, 0x3F800000, 0, 0, 0⟩ ⟨0x00, 0, 0x803F⟩
    (fun _ => true) = true := by decide
theorem test_fwrEncBadc : answers State.reset ⟨0x61, 0x7FA00000, 0, 0, 0⟩ ⟨0x00, 0xA07F, 0⟩
    (fun _ => true) = true := by decide
theorem test_fwrEncCdab : answers barred ⟨0x71, 0x3F800000, 0, 0, 0⟩ ⟨0x00, 0, 0x3F80⟩
    (fun t => t.mem == []) = true := by decide

/-! ### RLR (95_test_vectors.md section 2.1) -/

theorem test_rlrLookup_quantity :
    answers (holding [(0x1003, 0x07), (0x1004, 0xD0)]) ⟨0xC0, 0x01, 0x1001, 0, 0⟩ ⟨0x00, 0xFC, 0⟩ (fun _ => true) = true ∧
      answers (holding [(0x1002, 0xFF), (0x1003, 0xFF)]) ⟨0xC0, 0xFFFFFF03, 0x1000, 0, 0⟩ ⟨0x00, 0x20000, 0⟩
        (fun _ => true) = true := by decide

theorem test_rlrLookup_without_quantity :
    [(0x11, 0, 1), (0x07, 3, 0), (0x16, 7, 0), (0x2B, 5, 0), (0xFF, 5, 0)].all
      (fun p => answers barred ⟨0xC0, p.1, 0xFFFFFFF0, 0, 0⟩ ⟨0x00, p.2.1, p.2.2⟩ (fun _ => true)) = true := by decide

/-! ### BPK (95_test_vectors.md section 2.2) -/

theorem test_bpkUnpackByte :
    answers (holding [(0x4004, 0xAA), (0x4005, 0xAA), (0x400D, 0xBB)]) ⟨0x80, 0x4000, 5, 0x1B2, 0⟩ ⟨0x00, 0, 0⟩
      (fun t => bytes t.mem 0x4004 10 == [0xAA, 0, 1, 0, 0, 1, 1, 0, 1, 0xBB] && t.mem.wf) = true := by decide

theorem test_bpkUnpackByte_past_the_top :
    breaks State.reset ⟨0x80, 0xFFFFFFFC, 0, 0xFF, 0⟩ ⟨.access, 0x100000000⟩ = true := by decide

theorem test_bpkUnpackBytes :
    answers (holding [(0x5000, 0xCD), (0x5001, 0x6B), (0x600D, 0xEE)]) ⟨0x81, 0x6000, 0, 13, 0x5000⟩ ⟨0x00, 0, 0⟩
      (fun t => bytes t.mem 0x6000 14 == [1, 0, 1, 1, 0, 0, 1, 1, 1, 1, 0, 1, 0, 0xEE] && t.mem.wf) = true := by decide

theorem test_bpkUnpackBytes_breaks :
    breaks (holding [(0x5001, 0xFF), (0x5002, 0xFF)]) ⟨0x81, 0x5000, 0, 16, 0x5001⟩ ⟨.overlap, 0x5001⟩ = true ∧
      breaks { holding [(0x5001, 0xFF)] with readOK := [⟨0, 0x5002⟩] } ⟨0x81, 0x5000, 0, 16, 0x5001⟩
        ⟨.access, 0x5002⟩ = true := by decide

/-- The start entries of the vectors of BPK.PACK_BYTE. -/
def entries : Memory :=
  [(0x7000, 0x01), (0x7002, 0x01), (0x7003, 0x01), (0x7006, 0x01), (0x7007, 0x01), (0x7008, 0x02), (0x7009, 0xFF),
    (0x700B, 0x01)]

theorem test_bpkPackByte :
    answers (holding entries) ⟨0x82, 0x7000, 0, 8, 0⟩ ⟨0x00, 0xCD, 0⟩ (fun t => t.mem == entries) = true ∧
      answers (holding entries) ⟨0x82, 0x7000, 8, 4, 0⟩ ⟨0x00, 0x0B, 0⟩ (fun t => t.mem == entries) = true := by decide

theorem test_bpkPackByte_over_long :
    answers { holding entries with readOK := [⟨0, 0x7008⟩] } ⟨0x82, 0x7000, 0, 9, 0⟩ ⟨0x02, 0xCD, 0⟩ (fun _ => true) = true ∧
      breaks { holding entries with readOK := [⟨0, 0x7007⟩] } ⟨0x82, 0x7000, 0, 0xFFFFFFFF, 0⟩ ⟨.access, 0x7007⟩ =
        true := by decide

/-! ### Illegal commands, the port, the host and reset -/

theorem test_illegal : answers barred ⟨0x80000040, 1, 2, 3, 4⟩ ⟨0x01, 0, 0⟩ (fun t => !t.succeeded) = true := by decide

/-- The first command of a program is taken by one step and runs in the next (R175). -/
theorem test_first_command_of_a_program :
    goesOn (Host.Core.run core 2 (State.launch [⟨0x41, 0x11223344, 0, 0, 0⟩] [] wholeSpace wholeSpace))
      (fun t => t.observed == [⟨0x00, 0x1122, 0x3344⟩] && t.succeeded) = true := by decide

theorem test_withFetchWord_runs : goesOn (step (State.reset.withFetchWord 32 0x82))
    (fun t => t.observed == [⟨0x00, 0, 0⟩]) = true := by decide

theorem test_response_is_gone_after_reset :
    goesOn (step { State.reset with response := some ⟨0, 1, 2⟩, host := [.reset, .readResponse] })
      (fun t => faults (step t) .noResponse) = true := by decide

/-- 95_test_vectors.md P5: a command abandoned by reset has no response, the next one is unaffected, and the run is no
successful end. -/
theorem test_reset_in_the_middle_of_a_command :
    goesOn (Host.Core.run core 4 { State.reset with
      host := [.present ⟨0x41, 1, 0, 0, 0⟩, .reset, .present ⟨0x41, 0x3F800000, 0, 0, 0⟩] })
      (fun t => t.observed == [⟨0x00, 0x3F80, 0⟩] && t.port == .ready && t.host == [] && !t.succeeded) = true := by
  decide

theorem test_host_may_not_write_the_write_set :
    refuses (step { State.reset with port := .busy ⟨0x80, 0x4000, 0, 0xFF, 0⟩, host := [.write 0x4007 1] })
      (.hostBreach 0x4007) = true := by decide

theorem test_lost_command_stops_the_run :
    faults (step { State.reset with port := .lost ⟨.access, 3⟩ }) (.contract ⟨.access, 3⟩) = true := by decide

/-! ### Witnesses: for every obligation with hypotheses, a concrete state and operands that meet them -/

/-- A busy block whose command is in flight, the host's next moves given. -/
def inFlight (c : Command) (host : List HostMove) : State := { State.reset with port := .busy c, host := host }

theorem witness_decodeFollowsTheOpcodeMap :
    legalWords.all (fun w => (Command.mk w 1 2 3 4).cmd == w) = true ∧ (Command.mk 0x72 1 2 3 4).cmd ∉ legalWords := by
  decide

theorem witness_illegalCommandsAreTheFiveKinds :
    decode ⟨0x80000040, 1, 2, 3, 4⟩ = none ∧ decode ⟨0x3F, 1, 2, 3, 4⟩ = none ∧ decode ⟨0x42, 1, 2, 3, 4⟩ = none ∧
      decode ⟨0x83, 1, 2, 3, 4⟩ = none ∧ decode ⟨0xC1, 1, 2, 3, 4⟩ = none ∧
      ({ State.reset with host := [.present ⟨0x83, 1, 2, 3, 4⟩] } : State).port = .ready ∧
      ({ State.reset with host := [.present ⟨0x83, 1, 2, 3, 4⟩] } : State).host = .present ⟨0x83, 1, 2, 3, 4⟩ :: [] := by
  decide

theorem witness_encodeOfDecodeIsTheMessage :
    (Command.mk 0x82 1 2 3 0).wellFormed = true ∧ ∃ i, decode ⟨0x82, 1, 2, 3, 0⟩ = some i ∧ encode i = ⟨0x82, 1, 2, 3, 0⟩ :=
  ⟨by decide, _, rfl, rfl⟩

/-- Two messages that differ in ignored bits alone, for each clause. -/
theorem witness_ignoredOperandBitsHaveNoEffect :
    (Command.mk 0x70 0x1FFFF 0x20001 0 0 ≠ ⟨0x70, 0x2FFFF, 0x30001, 5, 6⟩ ∧
      (0x1FFFF#32).extractLsb' 0 16 = (0x2FFFF#32).extractLsb' 0 16 ∧
      (0x20001#32).extractLsb' 0 16 = (0x30001#32).extractLsb' 0 16) ∧
    Command.mk 0x71 9 0 0 0 ≠ ⟨0x71, 9, 1, 2, 3⟩ ∧
    (Command.mk 0x80 1 2 0x1FF 0 ≠ ⟨0x80, 1, 2, 0x2FF, 6⟩ ∧
      (0x1FF#32).extractLsb' 0 8 = (0x2FF#32).extractLsb' 0 8) ∧
    Command.mk 0x82 1 2 3 0 ≠ ⟨0x82, 1, 2, 3, 4⟩ ∧
    (Command.mk 0xC0 0x103 2 0 0 ≠ ⟨0xC0, 0x203, 2, 7, 8⟩ ∧
      (0x103#32).extractLsb' 0 8 = (0x203#32).extractLsb' 0 8) ∧
    0xC1#32 ∉ legalWords := by decide

theorem witness_fwrDecodeRespondsWithTheFloat :
    (Command.mk 0x40 1 2 3 4).cmd = 0x40 ∧ (Command.mk 0x50 1 2 3 4).cmd = 0x50 ∧ (Command.mk 0x60 1 2 3 4).cmd = 0x60 ∧
      (Command.mk 0x70 1 2 3 4).cmd = 0x70 := by decide

theorem witness_fwrEncodeRespondsWithTheWords :
    (Command.mk 0x41 1 2 3 4).cmd = 0x41 ∧ (Command.mk 0x51 1 2 3 4).cmd = 0x51 ∧ (Command.mk 0x61 1 2 3 4).cmd = 0x61 ∧
      (Command.mk 0x71 1 2 3 4).cmd = 0x71 := by decide

/-- Each clause: every class in the ROM after reset, the two quantity bytes the last two of the space. -/
theorem witness_lookupRespondsWithTheLength :
    State.reset.rom.entry 0x02 = .bits ∧ State.reset.rom.entry 0x17 = .regs ∧
      State.reset.readable ((0xFFFFFFFC : Word32).toNat + 2) = true ∧
      State.reset.readable ((0xFFFFFFFC : Word32).toNat + 3) = true ∧ State.reset.rom.entry 0x07 = .const3 ∧
      State.reset.rom.entry 0xFF = .const5 ∧ State.reset.rom.entry 0x16 = .const7 ∧
      State.reset.rom.entry 0x11 = .unknown := by decide

/-- The least and the greatest Known length, and the greatest of the BITS class. -/
theorem witness_knownLengthsAreExactAndBounded :
    (∃ t, exec (.rlrLookup 0x03 0x1000) State.reset = .next t ∧ t.response = some ⟨0, 2, 0⟩) ∧
    (∃ t, exec (.rlrLookup 0x03 0x1000) (holding [(0x1002, 0xFF), (0x1003, 0xFF)]) = .next t ∧
      t.response = some ⟨0, 131072, 0⟩) ∧
    ∃ t, exec (.rlrLookup 0x01 0x1000) (holding [(0x1002, 0xFF), (0x1003, 0xFF)]) = .next t ∧
      t.response = some ⟨0, 8194, 0⟩ ∧ State.reset.rom.entry 0x01 = .bits ∧ State.reset.rom.entry 0x07 = .const3 ∧
      State.reset.rom.entry 0x00 = .const5 ∧ State.reset.rom.entry 0x16 = .const7 :=
  ⟨⟨_, rfl, by decide⟩, ⟨_, rfl, by decide⟩, _, rfl, by decide, by decide, by decide, by decide, by decide⟩

/-- A memory that differs in every byte but the two read; and a class that reads nothing. -/
theorem witness_lookupReadsOnlyTheQuantity :
    State.reset.rom.entry 0x01 = .bits ∧
      Memory.read [(0x1001, 1), (0x1004, 1)] ((0x1000 : Word32).toNat + 2) = State.reset.mem.read ((0x1000 : Word32).toNat + 2) ∧
      Memory.read [(0x1001, 1), (0x1004, 1)] ((0x1000 : Word32).toNat + 3) = State.reset.mem.read ((0x1000 : Word32).toNat + 3) ∧
      State.reset.rom.entry 0x2B ≠ .bits ∧ State.reset.rom.entry 0x2B ≠ .regs := by decide

/-- The first byte not admitted; the second alone. -/
theorem witness_lookupFaultsOnAShortPayload :
    State.reset.rom.entry 0x03 = .regs ∧ State.reset.readable ((0xFFFFFFFE : Word32).toNat + 2) = false ∧
      State.reset.readable ((0xFFFFFFFD : Word32).toNat + 2) = true ∧
      State.reset.readable ((0xFFFFFFFD : Word32).toNat + 3) = false := by decide

/-- The last eight bytes of the space; and one address further. -/
theorem witness_unpackByteWritesEightEntries :
    State.reset.mem.wf = true ∧
      (∀ k < 8, State.reset.writable ((0xFFFFFFF0 : Word32).toNat + (8 : Word32).toNat + k) = true) ∧
      FirstNotAdmitted State.reset.writable (fun k => (0xFFFFFFF0 : Word32).toNat + (9 : Word32).toNat + k) 8 7 := by
  refine ⟨rfl, by decide, by decide, by decide, by decide⟩

/-- Nine bits at the top of the space, and each way the contract breaks. -/
theorem witness_unpackBytesWritesEveryEntry :
    State.reset.mem.wf = true ∧
      ((∀ j < ((9 : Word32).toNat + 7) / 8, State.reset.readable ((0 : Word32).toNat + j) = true) ∧
        (∀ i < (9 : Word32).toNat, State.reset.writable ((0xFFFFFFF7 : Word32).toNat + (0 : Word32).toNat + i) = true) ∧
        ∀ j < ((9 : Word32).toNat + 7) / 8, ∀ i < (9 : Word32).toNat,
          (0 : Word32).toNat + j ≠ (0xFFFFFFF7 : Word32).toNat + (0 : Word32).toNat + i) ∧
      FirstNotAdmitted State.reset.readable (fun j => (0xFFFFFFFF : Word32).toNat + j) (((9 : Word32).toNat + 7) / 8) 1 ∧
      FirstNotAdmitted State.reset.writable (fun i => (0xFFFFFFF8 : Word32).toNat + (0 : Word32).toNat + i)
        (9 : Word32).toNat 8 ∧
      ((∃ j < ((9 : Word32).toNat + 7) / 8, 2 = (2 : Word32).toNat + j) ∧
        (∃ i < (9 : Word32).toNat, 2 = (0 : Word32).toNat + (1 : Word32).toNat + i) ∧
        ∀ b < 2, ¬ ((∃ j < ((9 : Word32).toNat + 7) / 8, b = (2 : Word32).toNat + j) ∧
          ∃ i < (9 : Word32).toNat, b = (0 : Word32).toNat + (1 : Word32).toNat + i)) := by
  refine ⟨rfl, by decide, ⟨by decide, by decide, by decide⟩, ⟨by decide, by decide, by decide⟩, by decide⟩

/-- A count of nine, eight entries admitted; and the eighth of eight not admitted. -/
theorem witness_packByteRespondsWithThePackedByte :
    (∀ k < min (9 : Word32).toNat 8, State.reset.readable ((0xFFFFFFF8 : Word32).toNat + (0 : Word32).toNat + k) = true) ∧
      FirstNotAdmitted State.reset.readable (fun k => (0xFFFFFFF8 : Word32).toNat + (1 : Word32).toNat + k)
        (min (9 : Word32).toNat 8) 7 := by
  refine ⟨by decide, by decide, by decide, by decide⟩

theorem witness_bpkWritesOnlyItsWriteSet :
    (∃ t, exec (.bpkUnpackByte 0x4000 1 0xB2) State.reset = .next t ∧
      (0x4000 < (0x4000 : Word32).toNat + (1 : Word32).toNat ∨
        (0x4000 : Word32).toNat + (1 : Word32).toNat + 8 ≤ 0x4000)) ∧
    (∃ t, exec (.bpkUnpackBytes 0x6000 0 13 0x5000) State.reset = .next t ∧
      (0x600D < (0x6000 : Word32).toNat + (0 : Word32).toNat ∨
        (0x6000 : Word32).toNat + (0 : Word32).toNat + (13 : Word32).toNat ≤ 0x600D)) ∧
    ∃ t, exec (.bpkPackByte 0x7000 0 8) State.reset = .next t :=
  ⟨⟨_, rfl, by decide⟩, ⟨_, rfl, by decide⟩, _, rfl⟩

/-- Two packed bytes, the entries right after them. -/
theorem witness_unpackThenPackReturnsTheBytes :
    (holding [(0x5000, 0x0F), (0x5001, 0xF0)]).mem.wf = true ∧ (16 : Word32).toNat = 8 * 2 ∧
      (∀ j < 2, State.reset.readable ((0x5000 : Word32).toNat + j) = true) ∧
      (∀ i < 8 * 2, State.reset.writable ((0x5000 : Word32).toNat + (2 : Word32).toNat + i) = true ∧
        State.reset.readable ((0x5000 : Word32).toNat + (2 : Word32).toNat + i) = true) ∧
      (∀ j < 2, ∀ i < 8 * 2, (0x5000 : Word32).toNat + j ≠ (0x5000 : Word32).toNat + (2 : Word32).toNat + i) ∧
      ∃ t, exec (.bpkUnpackBytes 0x5000 2 16 0x5000) (holding [(0x5000, 0x0F), (0x5001, 0xF0)]) = .next t :=
  ⟨by decide, by decide, by decide, by decide, by decide, _, rfl⟩

/-- Eight entries, one of them neither 0 nor 1, and a packed byte that holds their bits. -/
theorem witness_packThenUnpackReturnsTheEntries :
    (8 : Word32).toNat ≤ 8 ∧ (holding [(0x5000, 0x83)]).mem.wf = true ∧
      (∀ k < (8 : Word32).toNat, State.reset.readable ((0x7000 : Word32).toNat + (0 : Word32).toNat + k) = true) ∧
      (∃ t, exec (.bpkPackByte 0x7000 0 8) (holding [(0x7000, 1), (0x7001, 0xFF), (0x7007, 2)]) = .next t ∧
        t.response = some ⟨0x00, (0x83 : Byte).setWidth 32, 0⟩) ∧
      (holding [(0x5000, 0x83)]).mem.read (0x5000 : Word32).toNat = 0x83 ∧
      State.reset.readable (0x5000 : Word32).toNat = true ∧
      ∀ k < (8 : Word32).toNat, State.reset.writable ((0x5001 : Word32).toNat + (0 : Word32).toNat + k) = true ∧
        (0x5001 : Word32).toNat + (0 : Word32).toNat + k ≠ (0x5000 : Word32).toNat :=
  ⟨by decide, by decide, by decide, ⟨_, rfl, by decide⟩, by decide, by decide, by decide⟩

theorem witness_unpackByteIsUnpackBytesOfEight :
    (holding [(0x5000, 0xB2)]).mem.read (0x5000 : Word32).toNat = 0xB2 ∧
      State.reset.readable (0x5000 : Word32).toNat = true ∧
      ∀ k < 8, State.reset.writable ((0x4FF8 : Word32).toNat + (0 : Word32).toNat + k) = true ∧
        (0x4FF8 : Word32).toNat + (0 : Word32).toNat + k ≠ (0x5000 : Word32).toNat := by decide

/-- Each clause: an illegal command; the second quantity byte, the last entry, the second packed byte, the ninth entry and
the eighth entry of a count of nine past the top; the lowest common byte; and a count of nine with eight admitted. -/
theorem witness_errorPrecedence :
    decode ⟨0, 0, 0, 0, 0⟩ = none ∧
    (State.reset.rom.entry 0x03 = .regs ∧
      FirstNotAdmitted State.reset.readable (fun o => (0xFFFFFFFD : Word32).toNat + 2 + o) 2 1) ∧
    FirstNotAdmitted State.reset.writable (fun k => (0xFFFFFFF0 : Word32).toNat + (9 : Word32).toNat + k) 8 7 ∧
    FirstNotAdmitted State.reset.readable (fun j => (0xFFFFFFFF : Word32).toNat + j) (((9 : Word32).toNat + 7) / 8) 1 ∧
    ((∀ j < ((9 : Word32).toNat + 7) / 8, State.reset.readable ((0xFFFFFFFE : Word32).toNat + j) = true) ∧
      FirstNotAdmitted State.reset.writable (fun i => (0xFFFFFFF8 : Word32).toNat + (0 : Word32).toNat + i)
        (9 : Word32).toNat 8) ∧
    ((∀ j < ((9 : Word32).toNat + 7) / 8, State.reset.readable ((2 : Word32).toNat + j) = true) ∧
      (∀ i < (9 : Word32).toNat, State.reset.writable ((0 : Word32).toNat + (1 : Word32).toNat + i) = true) ∧
      (∃ j < ((9 : Word32).toNat + 7) / 8, 2 = (2 : Word32).toNat + j) ∧
      (∃ i < (9 : Word32).toNat, 2 = (0 : Word32).toNat + (1 : Word32).toNat + i) ∧
      ∀ b < 2, ¬ ((∃ j < ((9 : Word32).toNat + 7) / 8, b = (2 : Word32).toNat + j) ∧
        ∃ i < (9 : Word32).toNat, b = (0 : Word32).toNat + (1 : Word32).toNat + i)) ∧
    FirstNotAdmitted State.reset.readable (fun k => (0xFFFFFFF8 : Word32).toNat + (1 : Word32).toNat + k)
      (min (9 : Word32).toNat 8) 7 ∧
    8 < (9 : Word32).toNat ∧
    ∀ k < 8, State.reset.readable ((0xFFFFFFF8 : Word32).toNat + (0 : Word32).toNat + k) = true := by
  refine ⟨by decide, ⟨by decide, by decide, by decide, by decide⟩, ⟨by decide, by decide, by decide⟩,
    ⟨by decide, by decide, by decide⟩, ⟨by decide, by decide, by decide, by decide⟩, by decide,
    ⟨by decide, by decide, by decide⟩, by decide, by decide⟩

theorem witness_overlapIsReportedAtTheLowestCommonByte :
    (∀ x ∈ (planOf (.bpkUnpackBytes 0 1 9 2) State.reset).reads, State.reset.readable x = true) ∧
      (∀ x ∈ (planOf (.bpkUnpackBytes 0 1 9 2) State.reset).writeSet, State.reset.writable x = true) ∧
      2 ∈ (planOf (.bpkUnpackBytes 0 1 9 2) State.reset).reads ∧
      2 ∈ (planOf (.bpkUnpackBytes 0 1 9 2) State.reset).writeSet ∧
      (∀ b < 2, ¬ (b ∈ (planOf (.bpkUnpackBytes 0 1 9 2) State.reset).reads ∧
        b ∈ (planOf (.bpkUnpackBytes 0 1 9 2) State.reset).writeSet)) ∧
      ∃ t, exec (.bpkUnpackBytes 0 1 9 2) State.reset = .next t ∧ t.port = .lost ⟨.overlap, 2⟩ :=
  ⟨by decide, by decide, by decide, by decide, by decide, _, rfl, by decide⟩

/-- A space admitted whole, and for each command the smallest range that runs past its top. -/
theorem witness_addressesPastTheTopFault :
    (∀ a < 2 ^ 32, State.reset.readable a = true ∧ State.reset.writable a = true) ∧
      2 ^ 32 < (0xFFFFFFF9 : Word32).toNat + (0 : Word32).toNat + 8 ∧
      2 ^ 32 < (0xFFFFFFFF : Word32).toNat + ((9 : Word32).toNat + 7) / 8 ∧
      ((0 : Word32).toNat + ((9 : Word32).toNat + 7) / 8 ≤ 2 ^ 32 ∧ 0 < (9 : Word32).toNat ∧
        2 ^ 32 < (0xFFFFFFF8 : Word32).toNat + (0 : Word32).toNat + (9 : Word32).toNat) ∧
      2 ^ 32 < (0xFFFFFFFF : Word32).toNat + (0xFFFFFFFF : Word32).toNat + min (1 : Word32).toNat 8 ∧
      State.reset.rom.entry 0x03 = .regs ∧ 2 ^ 32 < (0xFFFFFFFD : Word32).toNat + 4 := by
  refine ⟨fun a h => ?_, by decide⟩
  simpa [State.readable, State.writable, admits, State.reset, wholeSpace, Region.holds, addrSpace] using h

/-- A command that breaks its contract halfway: some bytes of its write set are inside the space, some are not. -/
theorem witness_contractFaultLeavesTheWriteSetUnconstrained :
    State.reset.mem.wf = true ∧
      (∃ t, exec (.bpkUnpackByte 0xFFFFFFFC 0 0xFF) State.reset = .next t ∧ t.port = .lost ⟨.access, 0x100000000⟩) ∧
      (planOf (.bpkUnpackByte 0xFFFFFFFC 0 0xFF) State.reset).writeSet[3]? = some 0xFFFFFFFF ∧ 0xFFFFFFFF < 2 ^ 32 ∧
      0xFFFFFFFB ∉ (planOf (.bpkUnpackByte 0xFFFFFFFC 0 0xFF) State.reset).writeSet :=
  ⟨rfl, ⟨_, rfl, by decide⟩, by decide, by decide, by decide⟩

theorem witness_contractFaultsAreKept :
    (∃ t, step (inFlight ⟨0x80, 0xFFFFFFFC, 0, 0xFF, 0⟩ []) = .next t) ∧
      ({ State.reset with contractFaults := [⟨.access, 3⟩] } : State).contractFaults ≠ [] ∧
      ({ State.reset with port := .lost ⟨.access, 3⟩ } : State).port = .lost ⟨.access, 3⟩ ∧
      NothingInTheWay { State.reset with port := .lost ⟨.access, 3⟩ } :=
  ⟨⟨_, rfl⟩, by decide, rfl, .inl rfl⟩

theorem witness_everyCommandEndsWithItsStatus : decode ⟨0x72, 0x3F800000, 0, 0, 0⟩ = none := by decide

theorem witness_illegalCommandIsAnsweredAndForgotten :
    decode ⟨0x72, 1, 2, 3, 4⟩ = none ∧
      ({ State.reset with host := [.present ⟨0x72, 1, 2, 3, 4⟩] } : State).port = .ready ∧
      ({ State.reset with host := [.present ⟨0x72, 1, 2, 3, 4⟩] } : State).host = .present ⟨0x72, 1, 2, 3, 4⟩ :: [] ∧
      (inFlight ⟨0x72, 1, 2, 3, 4⟩ [.awaitResponse]).port = .busy ⟨0x72, 1, 2, 3, 4⟩ ∧
      NothingInTheWay (inFlight ⟨0x72, 1, 2, 3, 4⟩ [.awaitResponse]) ∧
      ∃ t, step (inFlight ⟨0x72, 1, 2, 3, 4⟩ [.awaitResponse]) = .next t :=
  ⟨by decide, rfl, rfl, rfl, .inr (.inr ⟨_, rfl⟩), _, rfl⟩

/-- A program that ends with both responses, and one on its way whose last command has none yet. -/
theorem witness_successMeansNoFaultOfAnyKind :
    (∃ t, RunsTo [⟨0x41, 1, 0, 0, 0⟩, ⟨0x40, 1, 2, 0, 0⟩] [] wholeSpace wholeSpace 4 t ∧ t.succeeded = true ∧
      t.observed.length = 2) ∧
    ∃ t, RunsTo [⟨0x41, 1, 0, 0, 0⟩, ⟨0x40, 1, 2, 0, 0⟩] [] wholeSpace wholeSpace 3 t ∧ t.succeeded = false ∧
      t.observed.length = 1 :=
  ⟨⟨_, rfl, by decide, by decide⟩, _, rfl, by decide, by decide⟩

/-- Two states with different pasts that agree on what the command reads: one in which it answers, one in which its
contract breaks. -/
theorem witness_resultDependsOnOperandsAndReadSetOnly :
    (holding [(0x10, 1), (0x5000, 0xB2)]).mem.wf = true ∧ (holding [(0x20, 1), (0x5000, 0xB2)]).mem.wf = true ∧
      (∀ a ∈ (planOf (.bpkUnpackBytes 0x6000 0 8 0x5000) (holding [(0x10, 1), (0x5000, 0xB2)])).reads,
        (holding [(0x10, 1), (0x5000, 0xB2)]).mem.read a = (holding [(0x20, 1), (0x5000, 0xB2)]).mem.read a) ∧
      (∃ t, exec (.bpkUnpackBytes 0x6000 0 8 0x5000) (holding [(0x10, 1), (0x5000, 0xB2)]) = .next t ∧
        t.port = .ready) ∧
      ∃ t, exec (.bpkUnpackBytes 0x4FFF 0 8 0x5000) (holding [(0x10, 1), (0x5000, 0xB2)]) = .next t ∧
        t.port = .lost ⟨.overlap, 0x5000⟩ :=
  ⟨by decide, by decide, by decide, ⟨_, rfl, by decide⟩, _, rfl, by decide⟩

theorem witness_writeOrderIsUnobservable :
    Memory.wf [(1, 7)] = true ∧ (∀ c ∈ ([(1, 0), (0xFFFFFFFF, 5)] : List Host.Cell), c.1 < 2 ^ 32) ∧
      (([(1, 0), (0xFFFFFFFF, 5)] : List Host.Cell).map Prod.fst).Nodup ∧
      ([(1, 0), (0xFFFFFFFF, 5)] : List Host.Cell).Perm [(0xFFFFFFFF, 5), (1, 0)] := by decide

theorem witness_stepRunsTheDecodedCommand :
    (inFlight ⟨0x41, 1, 2, 3, 4⟩ []).port = .busy ⟨0x41, 1, 2, 3, 4⟩ ∧
      decode ⟨0x41, 1, 2, 3, 4⟩ = some (.fwrEncAbcd 1) ∧ NothingInTheWay (inFlight ⟨0x41, 1, 2, 3, 4⟩ []) ∧
      decode ⟨0x42, 1, 2, 3, 4⟩ = none ∧
      NothingInTheWay (inFlight ⟨0x42, 1, 2, 3, 4⟩ [.present ⟨0x41, 1, 2, 3, 4⟩]) ∧
      decodeTableWord 32 0x41 = some (.fwrEncAbcd 0) :=
  ⟨rfl, by decide, .inl rfl, by decide, .inr (.inl ⟨_, _, rfl⟩), by decide⟩

theorem witness_portTakesACommandOnlyWhenNotBusy :
    ({ State.reset with host := [.present ⟨0x41, 1, 2, 3, 4⟩] } : State).busy = false ∧
      (inFlight ⟨0x42, 1, 2, 3, 4⟩ [.present ⟨0x41, 1, 2, 3, 4⟩]).busy = true ∧
      ∃ t r, step (inFlight ⟨0x42, 1, 2, 3, 4⟩ [.present ⟨0x41, 1, 2, 3, 4⟩]) = .next t ∧ t.observed = [] ++ [r] :=
  ⟨rfl, rfl, _, _, rfl, rfl⟩

theorem witness_inFlightCommandResponds :
    (inFlight ⟨0xC0, 3, 0x1000, 0, 0⟩ [.awaitResponse]).port = .busy ⟨0xC0, 3, 0x1000, 0, 0⟩ ∧
      NothingInTheWay (inFlight ⟨0xC0, 3, 0x1000, 0, 0⟩ [.awaitResponse]) :=
  ⟨rfl, .inr (.inr ⟨_, rfl⟩)⟩

/-- The host writes the byte right after the write set while the command is in flight. -/
theorem witness_hostCannotDisturbACommandInFlight :
    (inFlight ⟨0x80, 0x4000, 0, 0xFF, 0⟩ [.write 0x4008 1]).port = .busy ⟨0x80, 0x4000, 0, 0xFF, 0⟩ ∧
      ∃ t, step (inFlight ⟨0x80, 0x4000, 0, 0xFF, 0⟩ [.write 0x4008 1]) = .next t ∧
        t.port = .busy ⟨0x80, 0x4000, 0, 0xFF, 0⟩ ∧ t.mem = [(0x4008, 1)] :=
  ⟨rfl, _, rfl, rfl, rfl⟩

/-- The bytes at both ends of the read set and the write set, and the bytes beside them. -/
theorem witness_hostDutiesDuringACommand :
    0x5001 ∈ (planCommand ⟨0x81, 0x6000, 0, 13, 0x5000⟩ State.reset).reads ∧
      0x5002 ∉ (planCommand ⟨0x81, 0x6000, 0, 13, 0x5000⟩ State.reset).reads ∧
      0x5002 ∉ (planCommand ⟨0x81, 0x6000, 0, 13, 0x5000⟩ State.reset).writeSet ∧
      0x600C ∈ (planCommand ⟨0x81, 0x6000, 0, 13, 0x5000⟩ State.reset).writeSet ∧
      0x600D ∉ (planCommand ⟨0x81, 0x6000, 0, 13, 0x5000⟩ State.reset).writeSet ∧
      (inFlight ⟨0x81, 0x6000, 0, 13, 0x5000⟩ [.write 0x600C 1]).host = .write 0x600C 1 :: [] ∧
      (inFlight ⟨0x81, 0x6000, 0, 13, 0x5000⟩ [.read 0x600C]).host = .read 0x600C :: [] := by decide

/-- The first and the last byte of the space. -/
theorem witness_hostAccessLandsWhenReady :
    ({ State.reset with host := [.write 0xFFFFFFFF 7] } : State).busy = false ∧
      ({ State.reset with host := [.write 0xFFFFFFFF 7] } : State).host = .write 0xFFFFFFFF 7 :: [] ∧
      State.reset.mem.wf = true ∧ 0 ≠ (0xFFFFFFFF : Word32).toNat ∧
      ({ State.reset with host := [.read 0] } : State).host = .read 0 :: [] := by decide

theorem witness_runsWithAResetNeverCountAsEnded :
    (∃ t, step (inFlight ⟨0x41, 1, 0, 0, 0⟩ [.reset]) = .next t) ∧
      (∃ t, step { State.reset with resetLanded := true, host := [.write 5 1] } = .next t) ∧
      ({ State.reset with resetLanded := true } : State).resetLanded = true :=
  ⟨⟨_, rfl⟩, ⟨_, rfl⟩, rfl⟩

theorem witness_noResponseIsReadBeforeOneIsDelivered :
    ({ State.reset with host := [.readResponse] } : State).response = none ∧
      ({ State.reset with host := [.readResponse], response := some ⟨0, 1, 2⟩ } : State).response = some ⟨0, 1, 2⟩ ∧
      (∃ t, step { State.reset with host := [.reset], response := some ⟨0, 1, 2⟩ } = .next t) ∧
      ∃ t, step { State.reset with host := [.present ⟨0, 0, 0, 0, 0⟩], response := some ⟨0, 1, 2⟩ } = .next t :=
  ⟨rfl, rfl, ⟨_, rfl⟩, _, rfl⟩

/-- With no command in flight, a command waiting behind the reset; and with one in flight. -/
theorem witness_resetMakesTheBlockReady :
    ({ holding [(1, 2)] with host := [.reset, .present ⟨0x41, 1, 0, 0, 0⟩] } : State).host =
        .reset :: .present ⟨0x41, 1, 0, 0, 0⟩ :: [] ∧
      (∀ c, ({ holding [(1, 2)] with host := [.reset] } : State).port ≠ .busy c) ∧
      (∀ c, ({ State.reset with port := .lost ⟨.access, 3⟩, host := [.reset] } : State).port ≠ .busy c) ∧
      (inFlight ⟨0x41, 1, 0, 0, 0⟩ [.reset]).host = .reset :: [] :=
  ⟨rfl, fun _ => nofun, fun _ => nofun, rfl⟩

/-- A reset in flight of a command that keeps its contract, with its last cell, the last byte of the space. -/
theorem witness_resetInFlightLeavesEachByteOldOrNew :
    (inFlight ⟨0x80, 0xFFFFFFF8, 0, 0xFF, 0⟩ [.reset]).host = .reset :: [] ∧
      (inFlight ⟨0x80, 0xFFFFFFF8, 0, 0xFF, 0⟩ [.reset]).port = .busy ⟨0x80, 0xFFFFFFF8, 0, 0xFF, 0⟩ ∧
      (inFlight ⟨0x80, 0xFFFFFFF8, 0, 0xFF, 0⟩ [.reset]).mem.wf = true ∧
      (planCommand ⟨0x80, 0xFFFFFFF8, 0, 0xFF, 0⟩ State.reset).contractFault State.reset = none ∧
      (planCommand ⟨0x80, 0xFFFFFFF8, 0, 0xFF, 0⟩ State.reset).writes[7]? = some (0xFFFFFFFF, 1) := by decide

theorem witness_everyStepKeepsTheInvariant :
    State.Inv { holding [(1, 2)] with host := [.write 1 0], observed := [⟨1, 0, 0⟩], response := some ⟨1, 0, 0⟩ } ∧
      ∃ t, step { holding [(1, 2)] with
        host := [.write 1 0], observed := [⟨1, 0, 0⟩], response := some ⟨1, 0, 0⟩ } = .next t ∧ t.mem = [] :=
  ⟨⟨by decide, by simp [legalStatus], by simp, by simp [holding, State.reset]⟩, _, rfl, rfl⟩

theorem witness_noStepChangesRomOrLaunchParameters : ∃ t, step { State.reset with host := [.reset] } = .next t :=
  ⟨_, rfl⟩

/-- A byte changed by the command in flight, and a byte changed by the host. -/
theorem witness_stepFrame :
    goesOn (step (inFlight ⟨0x80, 0x4000, 0, 0xFF, 0⟩ [])) (fun t => t.mem.read 0x4007 != State.reset.mem.read 0x4007) =
        true ∧
      goesOn (step { State.reset with host := [.write 5 1] }) (fun t => t.mem.read 5 != State.reset.mem.read 5) = true := by
  decide

end Sys2Proof.Tests
end

section
/-! PROOFS. Scope (00_scope.md): how a completed plan shows outside, and that it depends on the plan and the contract
alone (R3). -/

namespace Sys2Proof.Machine

/-- The port is ready again exactly when the command kept its contract (R152, R175). -/
theorem complete_port_eq_ready {p : Plan} {s : State} :
    (complete p s).port = .ready ↔ p.contractFault s = none := by
  obtain ⟨hn, e⟩ | ⟨f, hf, e⟩ := complete_cases p s
  · simp [e, hn]
  · simp [e, hf]

/-- A command lost to a contract fault puts that fault, and only that one, on the record (R152). -/
theorem complete_contractFaults_of_lost {p : Plan} {s : State} {f : ContractFault}
    (h : (complete p s).port = .lost f) : (complete p s).contractFaults = s.contractFaults ++ [f] := by
  obtain ⟨-, e⟩ | ⟨g, -, e⟩ := complete_cases p s
  · simp [e] at h
  · obtain rfl : g = f := by simpa [e] using h
    simp [e]

/-- Whether a plan ends in its response or in a contract fault, and in which one, is decided by its contract. -/
theorem complete_port_response_congr {p : Plan} {s s' : State} (h : p.contractFault s = p.contractFault s') :
    (complete p s').port = (complete p s).port ∧ (complete p s').response = (complete p s).response := by
  obtain ⟨hn, e⟩ | ⟨f, hf, e⟩ := complete_cases p s
  · simp [e, complete_of_none (h ▸ hn)]
  · simp [e, complete_of_some (h ▸ hf)]

/-- A plan that keeps its contract in two states leaves the same bytes in its write set. -/
theorem complete_read_congr {p : Plan} {s s' : State} {a : Nat} (hm : s.mem.wf = true) (hm' : s'.mem.wf = true)
    (hn : p.contractFault s = none) (hn' : p.contractFault s' = none) (hd : p.writeSet.Nodup)
    (ha : a ∈ p.writeSet) : (complete p s').mem.read a = (complete p s).mem.read a := by
  obtain ⟨⟨_, v⟩, hc, rfl⟩ := List.mem_map.1 ha
  exact (complete_read_written hm' hn' hd hc).trans (complete_read_written hm hn hd hc).symm

/-- Settles O36: the two states give the command the same plan and the same contract, and a completed plan shows
nothing else of the state it ran in. -/
theorem resultDependsOnOperandsAndReadSetOnly : Obligations.ResultDependsOnOperandsAndReadSetOnly := by
  unfold Obligations.ResultDependsOnOperandsAndReadSetOnly
  intro i s s' t hrom hread hwrite hwf hwf' hagree hexec
  have hplan : planOf i s = planOf i s' := planOf_congr i hrom hagree
  have hcontract : (planOf i s).contractFault s = (planOf i s).contractFault s' :=
    Plan.contractFault_congr hread hwrite
  obtain ⟨hport, hresponse⟩ := complete_port_response_congr hcontract
  rw [exec_eq_complete] at hexec
  cases hexec
  refine ⟨complete (planOf i s) s', by rw [exec_eq_complete, hplan], hport, hresponse, ?_, ?_⟩
  · intro f hlost
    exact complete_contractFaults_of_lost (hport.trans hlost)
  · intro hready a ha
    have hn : (planOf i s).contractFault s = none := complete_port_eq_ready.1 hready
    exact complete_read_congr hwf hwf' hn (hcontract ▸ hn) (planOf_writeSet_nodup i s) ha

end Sys2Proof.Machine
end

section
/-! PROOFS. The invariant (10_state.md R24, R26, R27): each thing a step can do keeps it, and none touches the ROM or
the launch parameters. -/

namespace Sys2Proof.Machine

/-! ### STATUS is always one of the three codes (R150) -/

theorem legalStatus_packStatus (nbBits : Word32) : legalStatus (packStatus nbBits) = true := by
  unfold packStatus
  split <;> rfl

@[simp] theorem lengthResponse_status (n : Length) : (lengthResponse n).status = statusOk := by
  cases n <;> rfl

theorem legalStatus_planOf (i : Instr) (s : State) : legalStatus (planOf i s).response.status = true := by
  cases i with
  | bpkPackByte src idx nbBits => exact legalStatus_packStatus nbBits
  | rlrLookup fc payload => simp [planOf, planRlrLookup, legalStatus]
  | _ => rfl

theorem legalStatus_planCommand (c : Command) (s : State) :
    legalStatus (planCommand c s).response.status = true := by
  unfold planCommand
  split
  · exact legalStatus_planOf _ s
  · rfl

/-! ### Each thing a step can do keeps the invariant -/

/-- Reset keeps memory canonical, with a command in flight or not. -/
theorem State.takeReset_wf {s : State} (hm : s.mem.wf = true) : s.takeReset.mem.wf = true := by
  unfold State.takeReset
  split
  · exact hm
  · exact abandon_wf hm
  · exact hm

theorem State.Inv.withHost {s : State} (hs : s.Inv) (q : List HostMove) : State.Inv { s with host := q } :=
  ⟨hs.memory, hs.statuses, hs.message, hs.lostOnRecord⟩

theorem State.Inv.accept {s : State} (hs : s.Inv) (c : Command) : (s.accept c).Inv :=
  ⟨hs.memory, hs.statuses, by simp, by simp⟩

theorem State.Inv.hostWrite {s : State} (hs : s.Inv) (a : Word32) (v : Byte) :
    State.Inv { s with mem := s.mem.write a.toNat v } :=
  ⟨Memory.wf_write v hs.memory a.isLt, hs.statuses, hs.message, hs.lostOnRecord⟩

theorem State.Inv.takeReset {s : State} (hs : s.Inv) : s.takeReset.Inv :=
  ⟨State.takeReset_wf hs.memory, by simpa using hs.statuses, by simp, by simp⟩

/-- A command of legal STATUS that ends, in its response or in a contract fault, keeps the invariant. -/
theorem State.Inv.complete {s : State} {p : Plan} (hs : s.Inv) (hp : legalStatus p.response.status = true) :
    (Machine.complete p s).Inv := by
  have hm : (Machine.complete p s).mem.wf = true := complete_wf hs.memory
  obtain ⟨-, e⟩ | ⟨f, -, e⟩ := complete_cases p s <;> rw [e] at hm ⊢
  · refine ⟨hm, ?_, by simp, by simp⟩
    intro r hr
    rw [State.deliver_observed, List.mem_append, List.mem_singleton] at hr
    obtain hr | rfl := hr
    · exact hs.statuses r hr
    · exact hp
  · exact ⟨hm, hs.statuses, by simp, by simp⟩

/-- Settles O47: nothing is listed in memory, nothing is delivered, and the port is ready. -/
theorem invariantHoldsAtReset : Obligations.InvariantHoldsAtReset := by
  unfold Obligations.InvariantHoldsAtReset
  exact ⟨rfl, nofun, nofun, nofun⟩

/-- Settles O48, by the cases of the step: the command in flight ends, or one host move lands. -/
theorem everyStepKeepsTheInvariant : Obligations.EveryStepKeepsTheInvariant := by
  unfold Obligations.EveryStepKeepsTheInvariant
  intro s t hs h
  obtain ⟨c, -, rfl⟩ | ⟨-, rfl, -⟩ | ⟨c, q, -, -, rfl⟩ | ⟨q, -, -, rfl⟩ | ⟨q, r, -, -, rfl⟩ | ⟨a, v, q, -, rfl, -⟩ |
    ⟨a, q, -, rfl⟩ | ⟨q, -, rfl⟩ := step_cases h
  · exact hs.complete (legalStatus_planCommand c s)
  · exact hs
  · exact (hs.withHost q).accept c
  · exact hs.withHost q
  · exact hs.withHost q
  · exact (hs.hostWrite a v).withHost q
  · exact hs.withHost q
  · exact (hs.withHost q).takeReset

/-- Settles O49, by the cases of the step: a command that ends keeps these fields (`complete_frame`), and so does every
move of the host. -/
theorem noStepChangesRomOrLaunchParameters : Obligations.NoStepChangesRomOrLaunchParameters := by
  unfold Obligations.NoStepChangesRomOrLaunchParameters
  intro s t h
  obtain ⟨c, -, rfl⟩ | ⟨-, rfl, -⟩ | ⟨c, q, -, -, rfl⟩ | ⟨q, -, -, rfl⟩ | ⟨q, r, -, -, rfl⟩ | ⟨a, v, q, -, rfl, -⟩ |
    ⟨a, q, -, rfl⟩ | ⟨q, -, rfl⟩ := step_cases h
  case inl =>
    obtain ⟨hrom, hread, hwrite, -, -⟩ := complete_frame (planCommand c s) s
    exact ⟨hrom, hread, hwrite⟩
  all_goals simp

end Sys2Proof.Machine
end

section
/-! PROOFS. The response message and the state after reset (10_state.md R24, R31): what the step is when the host reads
the response, resets the block or presents a command. -/

namespace Sys2Proof.Machine

section
variable {s : State} {q : List HostMove}

theorem step_of_readResponse (h : s.host = .readResponse :: q) : step s = s.hostReadResponse q := by
  simp only [step, State.stepOnce, h]

theorem step_of_reset (h : s.host = .reset :: q) : step s = .next ({ s with host := q } : State).takeReset := by
  simp only [step, State.stepOnce, h]

/-- BUSY = 0: the command presented is taken (R175). -/
theorem step_of_present_ready {c : Command} (h : s.host = .present c :: q) (hp : s.port = .ready) :
    step s = .next (({ s with host := q } : State).accept c) := by
  simp only [step, State.stepOnce, h, State.hostPresent, hp]

theorem hostReadResponse_of_none (h : s.response = none) : s.hostReadResponse q = .fault .noResponse := by
  simp only [State.hostReadResponse, State.lastResponse, h]

theorem hostReadResponse_of_some {r : Response} (h : s.response = some r) :
    s.hostReadResponse q = .next { s with host := q } := by
  simp only [State.hostReadResponse, State.lastResponse, h]

end

/-- Settles O43: the move looks at the response message alone, and reset and acceptance leave none. -/
theorem noResponseIsReadBeforeOneIsDelivered : Obligations.NoResponseIsReadBeforeOneIsDelivered := by
  unfold Obligations.NoResponseIsReadBeforeOneIsDelivered
  refine ⟨fun s q h => ⟨?_, ?_⟩, rfl, fun s t q h ht => ?_, fun s t c q h hp ht => ?_⟩
  · intro hn
    rw [step_of_readResponse h, hostReadResponse_of_none hn]
  · intro r hr
    rw [step_of_readResponse h, hostReadResponse_of_some hr]
  · rw [step_of_reset h] at ht
    cases ht
    exact State.takeReset_response _
  · rw [step_of_present_ready h hp] at ht
    cases ht
    rfl

/-- Settles O44: the fields are those `State.reset` gives, and a ready port takes the command presented. -/
theorem resetStateIsReady : Obligations.ResetStateIsReady := by
  unfold Obligations.ResetStateIsReady
  refine ⟨rfl, rfl, rfl, rfl, fun c q => ?_⟩
  exact ⟨_, step_of_present_ready rfl rfl, State.accept_port _ c⟩

end Sys2Proof.Machine
end

section
/-! PROOFS. Read sets and write sets (20_memory.md R59): each set is a span of addresses, or the two quantity bytes. -/

namespace Sys2Proof.Machine

/-- The addresses of a span of `n` offsets. -/
theorem mem_map_range {n a : Nat} {f : Nat → Nat} : a ∈ (List.range n).map f ↔ ∃ k < n, a = f k := by
  simp [eq_comm]

theorem mem_unpackByte_writeSet {dest idx : Word32} {v : Byte} {a : Nat} :
    a ∈ (planBpkUnpackByte dest idx v).writeSet ↔ ∃ k < 8, a = entryAddr dest idx k := by
  rw [unpackByte_writeSet, mem_map_range]

theorem mem_unpackBytes_writeSet {dest idx nb src : Word32} {s : State} {a : Nat} :
    a ∈ (planBpkUnpackBytes dest idx nb src s).writeSet ↔ ∃ i < nb.toNat, a = entryAddr dest idx i := by
  rw [unpackBytes_writeSet, mem_map_range]

/-- An FWR command has neither set (R135). -/
theorem notMem_planAnswer (r0 r1 : Word32) (a : Nat) :
    a ∉ (planAnswer r0 r1).reads ∧ a ∉ (planAnswer r0 r1).writeSet :=
  ⟨List.not_mem_nil, List.not_mem_nil⟩

/-- Settles O27, row by row of R59: the sets are the spans of R101 to R103 and the quantity bytes of R87. -/
theorem readAndWriteSetsAreTheTable : Obligations.ReadAndWriteSetsAreTheTable := by
  unfold Obligations.ReadAndWriteSetsAreTheTable
  intro s a w0 w1 v dest idx nbBits src payload value fc
  refine ⟨?_, ⟨List.not_mem_nil, mem_unpackByte_writeSet⟩, ⟨mem_packedAddrs, mem_unpackBytes_writeSet⟩,
    ⟨mem_packAddrs, List.not_mem_nil⟩, ⟨mem_quantityAddrs, List.not_mem_nil⟩, List.not_mem_nil, List.not_mem_nil⟩
  simp only [List.forall_mem_cons, planOf]
  exact ⟨notMem_planAnswer _ _ a, notMem_planAnswer _ _ a, notMem_planAnswer _ _ a, notMem_planAnswer _ _ a,
    notMem_planAnswer _ _ a, notMem_planAnswer _ _ a, notMem_planAnswer _ _ a, notMem_planAnswer _ _ a, nofun⟩

end Sys2Proof.Machine
end

section
/-! PROOFS. Which contract fault a command raises (20_memory.md R44, R57): the first byte not admitted of its reads, then
of its writes, then the lowest common byte. -/

namespace Sys2Proof.Machine

open Sys2Proof.Claims

/-- A command whose plan breaks its contract raises that contract fault. -/
theorem raises_of_contractFault {i : Instr} {s : State} {f : ContractFault}
    (h : (planOf i s).contractFault s = some f) : Raises i s f :=
  ⟨s.raise f (planOf i s).writeSet, by rw [exec_eq_complete, complete_of_some h],
    rfl, rfl, rfl, rfl, rfl, rfl, rfl, rfl, rfl⟩

/-- A command lost to a contract fault is one whose plan breaks its contract in that way. -/
theorem contractFault_of_complete_lost {p : Plan} {s : State} {f : ContractFault}
    (h : (complete p s).port = .lost f) : p.contractFault s = some f := by
  obtain ⟨-, e⟩ | ⟨g, hg, e⟩ := complete_cases p s
  · simp [e] at h
  · obtain rfl : g = f := by simpa [e] using h
    exact hg

/-! ### Access faults (R44) -/

/-- The first address not admitted is the one a search of the span finds. -/
theorem find_map_range_of_firstNotAdmitted {ok : Nat → Bool} {addr : Nat → Nat} {n k : Nat}
    (h : FirstNotAdmitted ok addr n k) : ((List.range n).map addr).find? (fun a => !ok a) = some (addr k) := by
  obtain ⟨hk, hbad, hbefore⟩ := h
  have hfind : (List.range n).find? (fun j => !ok (addr j)) = some k := by
    rw [List.find?_range_eq_some]
    simpa [hk, hbad] using hbefore
  rw [List.find?_map, Function.comp_def, hfind, Option.map_some]

/-- A read span with an address not admitted decides the contract (R155: reads come first). -/
theorem contractFault_of_reads {p : Plan} {s : State} {addr : Nat → Nat} {n k : Nat}
    (hreads : p.reads = (List.range n).map addr) (h : FirstNotAdmitted s.readable addr n k) :
    p.contractFault s = some ⟨.access, addr k⟩ := by
  rw [Plan.contractFault, admitReads, hreads, find_map_range_of_firstNotAdmitted h, Option.map_some, Option.some_or]

/-- With the reads admitted, a write span with an address not admitted decides the contract. -/
theorem contractFault_of_writes {p : Plan} {s : State} {addr : Nat → Nat} {n k : Nat}
    (hreads : ∀ a ∈ p.reads, s.readable a = true) (hwrites : p.writeSet = (List.range n).map addr)
    (h : FirstNotAdmitted s.writable addr n k) : p.contractFault s = some ⟨.access, addr k⟩ := by
  rw [Plan.contractFault, admitReads_eq_none.2 hreads, Option.none_or, admitWrites, hwrites,
    find_map_range_of_firstNotAdmitted h, Option.map_some, Option.some_or]

/-- The quantity bytes of a class that reads them, as a span (R87). -/
theorem quantityAddrs_eq_map_range {cls : LengthClass} (payload : Word32) (h : cls = .bits ∨ cls = .regs) :
    quantityAddrs cls payload = (List.range 2).map (payload.toNat + 2 + ·) := by
  obtain rfl | rfl := h <;> rfl

/-! ### Addresses past the top of the space (R10, R43) -/

/-- No launch parameter admits an address outside the space (R10). -/
theorem admits_of_le {a : Nat} (rs : List Region) (h : 2 ^ 32 ≤ a) : admits rs a = false := by
  by_contra hne
  have hlt : a < addrSpace := lt_of_admits (Bool.eq_true_of_not_eq_false hne)
  exact absurd hlt (Nat.not_lt.2 h)

/-- Where exactly the space is admitted, a range past its top has its first address not admitted at `2 ^ 32`, or at its
start when that lies above. -/
theorem firstNotAdmitted_past_top {ok : Nat → Bool} {start n : Nat} (hin : ∀ a < 2 ^ 32, ok a = true)
    (hout : ∀ a, 2 ^ 32 ≤ a → ok a = false) (hn : 0 < n) (htop : 2 ^ 32 < start + n) :
    FirstNotAdmitted ok (start + ·) n (2 ^ 32 - start) := by
  have hfirst : 2 ^ 32 ≤ start + (2 ^ 32 - start) := by omega
  have hbefore : ∀ j < 2 ^ 32 - start, start + j < 2 ^ 32 := by omega
  exact ⟨by omega, hout _ hfirst, fun j hj => hin _ (hbefore j hj)⟩

theorem add_sub_top (start : Nat) : start + (2 ^ 32 - start) = max (2 ^ 32) start := by omega

/-- Settles O30: each range past the top has its first address not admitted there, and the ranges before it in the order
of R155 are admitted. -/
theorem addressesPastTheTopFault : Obligations.AddressesPastTheTopFault := by
  unfold Obligations.AddressesPastTheTopFault
  intro s
  have hout : ∀ a, 2 ^ 32 ≤ a → s.readable a = false ∧ s.writable a = false :=
    fun a ha => ⟨admits_of_le _ ha, admits_of_le _ ha⟩
  refine ⟨hout, fun hin base idx nbBits src payload value fc => ?_⟩
  have hread {start n : Nat} (hn : 0 < n) (h : 2 ^ 32 < start + n) :
      FirstNotAdmitted s.readable (start + ·) n (2 ^ 32 - start) :=
    firstNotAdmitted_past_top (fun a ha => (hin a ha).1) (fun a ha => (hout a ha).1) hn h
  have hwrite {start n : Nat} (hn : 0 < n) (h : 2 ^ 32 < start + n) :
      FirstNotAdmitted s.writable (start + ·) n (2 ^ 32 - start) :=
    firstNotAdmitted_past_top (fun a ha => (hin a ha).2) (fun a ha => (hout a ha).2) hn h
  refine ⟨fun h => ?_, fun h => ?_, fun hsrc hn h => ?_, fun hn h => ?_, fun hcls h => ?_⟩
  · rw [← add_sub_top]
    exact raises_of_contractFault
      (contractFault_of_writes nofun (unpackByte_writeSet base idx value) (hwrite (by omega) h))
  · have hlt : src.toNat < 2 ^ 32 := src.isLt
    have hn : 0 < (nbBits.toNat + 7) / 8 := by omega
    rw [← Nat.max_eq_left hlt.le, ← add_sub_top]
    exact raises_of_contractFault
      (contractFault_of_reads (p := planBpkUnpackBytes base idx nbBits src s) rfl (hread hn h))
  · have hreads : ∀ a ∈ packedAddrs src nbBits, s.readable a = true := by
      intro a ha
      obtain ⟨j, hj, rfl⟩ := mem_packedAddrs.1 ha
      exact (hin _ (lt_of_lt_of_le (Nat.add_lt_add_left hj _) hsrc)).1
    rw [← add_sub_top]
    exact raises_of_contractFault
      (contractFault_of_writes hreads (unpackBytes_writeSet base idx nbBits src s) (hwrite hn h))
  · rw [← add_sub_top]
    exact raises_of_contractFault
      (contractFault_of_reads (p := planBpkPackByte base idx nbBits s) rfl (hread (by omega) h))
  · rw [← add_sub_top]
    exact raises_of_contractFault
      (contractFault_of_reads (quantityAddrs_eq_map_range payload hcls) (hread (by omega) h))

/-! ### The overlap fault (R57) -/

/-- The lowest common address, by there being none below it. -/
theorem lowestCommon_eq_some_iff_none_below {xs ys : List Nat} {a : Nat} :
    lowestCommon xs ys = some a ↔ a ∈ xs ∧ a ∈ ys ∧ ∀ b < a, ¬ (b ∈ xs ∧ b ∈ ys) := by
  rw [lowestCommon_eq_some, and_assoc]
  refine and_congr_right' (and_congr_right' ⟨fun h b hb hboth => ?_, fun h b hx hy => ?_⟩)
  · exact absurd (h b hboth.1 hboth.2) (Nat.not_le.2 hb)
  · exact Nat.le_of_not_lt fun hb => h b hb ⟨hx, hy⟩

/-- An overlap is the contract fault exactly when every byte of both sets is admitted and the sets meet (R57, R155). -/
theorem Plan.contractFault_eq_overlap {p : Plan} {s : State} {a : Nat} :
    p.contractFault s = some ⟨.overlap, a⟩ ↔
      (∀ x ∈ p.reads, s.readable x = true) ∧ (∀ x ∈ p.writeSet, s.writable x = true) ∧
        lowestCommon p.reads p.writeSet = some a := by
  have hreads : admitReads s p.reads ≠ some ⟨.overlap, a⟩ := by simp [admitReads]
  have hwrites : admitWrites s p.writeSet ≠ some ⟨.overlap, a⟩ := by simp [admitWrites]
  simp only [Plan.contractFault, Option.or_eq_some_iff, hreads, hwrites, false_or, admitReads_eq_none,
    admitWrites_eq_none, checkOverlap, Option.map_eq_some_iff, ContractFault.mk.injEq, true_and, exists_eq_right]

/-- BPK.UNPACK_BYTES alone both reads and writes (R59). -/
theorem eq_bpkUnpackBytes_of_reads_and_writes {i : Instr} {s : State} {a : Nat} (hr : a ∈ (planOf i s).reads)
    (hw : a ∈ (planOf i s).writeSet) : ∃ dest idx nbBits src, i = .bpkUnpackBytes dest idx nbBits src := by
  cases i with
  | bpkUnpackBytes dest idx nbBits src => exact ⟨dest, idx, nbBits, src, rfl⟩
  | bpkUnpackByte => exact absurd hr List.not_mem_nil
  | _ => exact absurd hw List.not_mem_nil

/-- Settles O29: an overlap is the contract fault at the lowest common byte, and a byte in both sets names the command. -/
theorem overlapIsReportedAtTheLowestCommonByte : Obligations.OverlapIsReportedAtTheLowestCommonByte := by
  unfold Obligations.OverlapIsReportedAtTheLowestCommonByte
  refine fun s i => ⟨fun a hreads hwrites hr hw hlow => ?_, fun t a hexec hlost => ?_⟩
  · exact raises_of_contractFault (Plan.contractFault_eq_overlap.2
      ⟨hreads, hwrites, lowestCommon_eq_some_iff_none_below.2 ⟨hr, hw, hlow⟩⟩)
  · rw [exec_eq_complete] at hexec
    cases hexec
    obtain ⟨-, -, hcommon⟩ := Plan.contractFault_eq_overlap.1 (contractFault_of_complete_lost hlost)
    obtain ⟨hr, hw, hlow⟩ := lowestCommon_eq_some_iff_none_below.1 hcommon
    exact ⟨⟨hr, hw, hlow⟩, eq_bpkUnpackBytes_of_reads_and_writes hr hw⟩

end Sys2Proof.Machine
end

section
/-! PROOFS. The order of a command's writes (20_memory.md R48). -/

namespace Sys2Proof.Machine

/-- Settles O37: in either order every listed byte reads as written and every other byte as before, and canonical memories
that read alike are equal. -/
theorem writeOrderIsUnobservable : Obligations.WriteOrderIsUnobservable := by
  unfold Obligations.WriteOrderIsUnobservable
  intro m cs ds hm hcs hdistinct hperm
  have hds : ∀ c ∈ ds, c.1 < addrSpace := fun c hc => hcs c (hperm.mem_iff.2 hc)
  have hdistinct' : (ds.map Prod.fst).Nodup := (hperm.map Prod.fst).nodup_iff.1 hdistinct
  refine Memory.ext_read (Memory.wf_writeAll hm hcs) (Memory.wf_writeAll hm hds) fun a => ?_
  by_cases ha : a ∈ cs.map Prod.fst
  · obtain ⟨⟨_, v⟩, hc, rfl⟩ := List.mem_map.1 ha
    rw [Memory.read_writeAll_mem hm hcs hdistinct hc,
      Memory.read_writeAll_mem hm hds hdistinct' (hperm.mem_iff.1 hc)]
  · have hne : ∀ c ∈ cs, c.1 ≠ a := fun c hc he => ha (List.mem_map.2 ⟨c, hc, he⟩)
    rw [Memory.read_writeAll_other hne, Memory.read_writeAll_other fun c hc => hne c (hperm.mem_iff.2 hc)]

end Sys2Proof.Machine
end

section
/-! PROOFS. The step of the command in flight and the host's accesses to memory (20_memory.md R47, R49, R58). -/

namespace Sys2Proof.Machine

open Sys2Proof.Claims

section
variable {s : State} {c : Command} {q : List HostMove}

/-! ### What the step is -/

/-- With no host move in its way the command in flight runs (R47). -/
theorem step_of_busy (hp : s.port = .busy c) (h : NothingInTheWay s) : step s = runCommand c s := by
  obtain h | ⟨d, q, h⟩ | ⟨q, h⟩ := h
  · simp only [step, State.stepOnce, h, State.advance, hp]
  · simp only [step, State.stepOnce, h, State.hostPresent, State.advance, hp]
  · simp only [step, State.stepOnce, h, State.hostAwait, State.advance, hp]

theorem runCommand_of_decode {i : Instr} (h : decode c = some i) : runCommand c s = exec i s := by
  simp only [runCommand, h]

theorem runCommand_of_illegal (h : decode c = none) : runCommand c s = execIllegal s := by
  simp only [runCommand, h]

theorem step_of_write {a : Word32} {v : Byte} (h : s.host = .write a v :: q) : step s = s.hostWrite a.toNat v q := by
  simp only [step, State.stepOnce, h]

theorem step_of_read {a : Word32} (h : s.host = .read a :: q) : step s = s.hostRead a.toNat q := by
  simp only [step, State.stepOnce, h]

/-! ### A host access by the state of the port (R58, R176) -/

variable {a : Nat} {v : Byte}

theorem hostWrite_of_ready (hp : s.port = .ready) :
    s.hostWrite a v q = .next { s with mem := s.mem.write a v, host := q } := by
  simp only [State.hostWrite, hp]

theorem hostWrite_of_breach (hp : s.port = .busy c)
    (h : a ∈ (planCommand c s).reads ∨ a ∈ (planCommand c s).writeSet) :
    s.hostWrite a v q = .refused (.hostBreach a) := by
  simp only [State.hostWrite, hp, if_pos h]

theorem hostWrite_of_busy (hp : s.port = .busy c) (hr : a ∉ (planCommand c s).reads)
    (hw : a ∉ (planCommand c s).writeSet) :
    s.hostWrite a v q = .next { s with mem := s.mem.write a v, host := q } := by
  simp only [State.hostWrite, hp, if_neg (not_or.2 ⟨hr, hw⟩)]

theorem hostRead_of_ready (hp : s.port = .ready) : s.hostRead a q = .next { s with host := q } := by
  simp only [State.hostRead, hp]

theorem hostRead_of_breach (hp : s.port = .busy c) (h : a ∈ (planCommand c s).writeSet) :
    s.hostRead a q = .refused (.hostBreach a) := by
  simp only [State.hostRead, hp, if_pos h]

theorem hostRead_of_busy (hp : s.port = .busy c) (h : a ∉ (planCommand c s).writeSet) :
    s.hostRead a q = .next { s with host := q } := by
  simp only [State.hostRead, hp, if_neg h]

end

/-- Settles O38: the step is the run of the message in flight, and a placed message has the host waiting for it. -/
theorem stepRunsTheDecodedCommand : Obligations.StepRunsTheDecodedCommand := by
  unfold Obligations.StepRunsTheDecodedCommand
  refine ⟨fun s c i hp hd h => ?_, fun s c hp hd h => ?_, fun s nbits w i hd => ?_⟩
  · rw [step_of_busy hp h, runCommand_of_decode hd]
  · rw [step_of_busy hp h, runCommand_of_illegal hd]
  · have hport : (s.withFetchWord nbits w).port = .busy (Command.ofBits nbits w) := State.placeInFlight_port s _
    rw [step_of_busy hport (.inr (.inr ⟨s.host, State.placeInFlight_host s _⟩)), runCommand_of_decode hd]

/-- Settles O42: the move is the host's access with a command in flight, which looks at the sets of its plan. -/
theorem hostDutiesDuringACommand : Obligations.HostDutiesDuringACommand := by
  unfold Obligations.HostDutiesDuringACommand
  intro s c a v q hp
  refine ⟨fun h => ?_, fun h => ?_⟩
  · rw [step_of_write h]
    exact ⟨hostWrite_of_breach hp, hostWrite_of_busy hp⟩
  · rw [step_of_read h]
    exact ⟨hostRead_of_breach hp, hostRead_of_busy hp⟩

/-- Settles O51: with BUSY = 0 the move is the memory write, or takes nothing but the host's move. -/
theorem hostAccessLandsWhenReady : Obligations.HostAccessLandsWhenReady := by
  unfold Obligations.HostAccessLandsWhenReady
  intro s a v q hbusy
  have hp : s.port = .ready := s.busy_eq_false.1 hbusy
  refine ⟨fun h => ⟨{ s with mem := s.mem.write a.toNat v, host := q }, ?_, rfl, Memory.read_write_same v,
    fun b hb => Memory.read_write_other v hb⟩, fun h => ?_⟩
  · rw [step_of_write h, hostWrite_of_ready hp]
  · rw [step_of_read h, hostRead_of_ready hp]

/-! ### What a step leaves of memory and of the command in flight -/

/-- A command that ends is not in flight any more. -/
theorem complete_port_ne_busy (p : Plan) (s : State) (c : Command) : (complete p s).port ≠ .busy c := by
  obtain ⟨-, e⟩ | ⟨f, -, e⟩ := complete_cases p s <;> simp [e]

/-- A command that ends answers and is ready, or is lost and answers nothing (R157). -/
theorem complete_observed (p : Plan) (s : State) :
    (complete p s).observed = s.observed ∨
      ∃ r, (complete p s).observed = s.observed ++ [r] ∧ (complete p s).response = some r ∧
        (complete p s).port = .ready := by
  obtain ⟨-, e⟩ | ⟨f, -, e⟩ := complete_cases p s
  · exact .inr ⟨p.response, by simp [e]⟩
  · exact .inl (by simp [e])

/-- A byte that a reset changes is in the write set of the command it abandons (R171). -/
theorem State.takeReset_read_ne {s : State} {a : Nat} (h : s.takeReset.mem.read a ≠ s.mem.read a) :
    ∃ c, s.port = .busy c ∧ a ∈ (planCommand c s).writeSet := by
  unfold State.takeReset at h
  split at h
  · exact absurd rfl h
  · rename_i c hp
    exact ⟨c, hp, by_contra fun ha => h (abandon_frame_mem ha)⟩
  · exact absurd rfl h

/-- Settles O41, by the cases of the step: the command ends or the port was ready, or a host move landed that wrote no
byte of the command's two sets. -/
theorem hostCannotDisturbACommandInFlight : Obligations.HostCannotDisturbACommandInFlight := by
  unfold Obligations.HostCannotDisturbACommandInFlight
  intro s t c hp h ht
  obtain ⟨hrom, hreadOK, hwriteOK⟩ := noStepChangesRomOrLaunchParameters s t h
  have hmem : ∀ a, a ∈ (planCommand c s).reads ∨ a ∈ (planCommand c s).writeSet → t.mem.read a = s.mem.read a := by
    intro a ha
    obtain ⟨c', -, rfl⟩ | ⟨-, rfl, -⟩ | ⟨c', q, -, hready, rfl⟩ | ⟨q, -, -, rfl⟩ | ⟨q, r, -, -, rfl⟩ |
      ⟨x, v, q, -, rfl, hduty⟩ | ⟨x, q, -, rfl⟩ | ⟨q, -, rfl⟩ := step_cases h
    · exact absurd ht (complete_port_ne_busy _ s c)
    · rfl
    · simp [hready] at hp
    · rfl
    · rfl
    · obtain ⟨hr, hw⟩ := hduty c hp
      refine Memory.read_write_other v ?_
      rintro rfl
      exact ha.elim hr hw
    · rfl
    · simp at ht
  have hplan : planCommand c t = planCommand c s :=
    (planCommand_congr c hrom.symm fun a ha => (hmem a (.inl ha)).symm).symm
  exact ⟨hplan, by rw [hplan, Plan.contractFault_congr hreadOK hwriteOK], fun a ha => hmem a (.inr ha)⟩

/-- Settles O50, by the cases of the step: a command that ends, a byte the host writes and a reset are what changes the
record of responses or memory. -/
theorem stepFrame : Obligations.StepFrame := by
  unfold Obligations.StepFrame
  intro s t h
  obtain ⟨c, hp, rfl⟩ | ⟨-, rfl, -⟩ | ⟨c, q, -, -, rfl⟩ | ⟨q, -, -, rfl⟩ | ⟨q, r, -, -, rfl⟩ | ⟨x, v, q, hh, rfl, -⟩ |
    ⟨x, q, -, rfl⟩ | ⟨q, -, rfl⟩ := step_cases h
  · exact ⟨complete_observed _ s, fun a ha => .inl ⟨c, hp, by_contra fun hn => ha (complete_frame_mem hn)⟩⟩
  · exact ⟨.inl rfl, fun a ha => absurd rfl ha⟩
  · exact ⟨.inl rfl, fun a ha => absurd rfl ha⟩
  · exact ⟨.inl rfl, fun a ha => absurd rfl ha⟩
  · exact ⟨.inl rfl, fun a ha => absurd rfl ha⟩
  · refine ⟨.inl rfl, fun a ha => .inr ⟨x, v, q, hh, ?_⟩⟩
    exact by_contra fun hn => ha (Memory.read_write_other v hn)
  · exact ⟨.inl rfl, fun a ha => absurd rfl ha⟩
  · refine ⟨.inl (State.takeReset_observed _), fun a ha => .inl ?_⟩
    obtain ⟨c, hp, hw⟩ := State.takeReset_read_ne ha
    exact ⟨c, hp, planCommand_withHost s c q ▸ hw⟩

end Sys2Proof.Machine
end

section
/-! PROOFS. The decoder and the opcode map (30_encoding.md R67, R70): what each of the twelve command words decodes to,
and that a message which decodes has its command's word. -/

namespace Sys2Proof

open Sys2Proof.Laws.EncodedForm (tableWord)

section
variable {c : Command}

/-! ### The rows of the opcode map (R67), with the operand bits of R70 -/

theorem decode_fwrDecAbcd (h : c.cmd = 0x40) : decode c = some (.fwrDecAbcd (word16Of c.opa) (word16Of c.opb)) := by
  simp [decode, Command.rsvd, Command.low, h]

theorem decode_fwrDecDcba (h : c.cmd = 0x50) : decode c = some (.fwrDecDcba (word16Of c.opa) (word16Of c.opb)) := by
  simp [decode, Command.rsvd, Command.low, h]

theorem decode_fwrDecBadc (h : c.cmd = 0x60) : decode c = some (.fwrDecBadc (word16Of c.opa) (word16Of c.opb)) := by
  simp [decode, Command.rsvd, Command.low, h]

theorem decode_fwrDecCdab (h : c.cmd = 0x70) : decode c = some (.fwrDecCdab (word16Of c.opa) (word16Of c.opb)) := by
  simp [decode, Command.rsvd, Command.low, h]

theorem decode_fwrEncAbcd (h : c.cmd = 0x41) : decode c = some (.fwrEncAbcd c.opa) := by
  simp [decode, Command.rsvd, Command.low, h]

theorem decode_fwrEncDcba (h : c.cmd = 0x51) : decode c = some (.fwrEncDcba c.opa) := by
  simp [decode, Command.rsvd, Command.low, h]

theorem decode_fwrEncBadc (h : c.cmd = 0x61) : decode c = some (.fwrEncBadc c.opa) := by
  simp [decode, Command.rsvd, Command.low, h]

theorem decode_fwrEncCdab (h : c.cmd = 0x71) : decode c = some (.fwrEncCdab c.opa) := by
  simp [decode, Command.rsvd, Command.low, h]

theorem decode_bpkUnpackByte (h : c.cmd = 0x80) : decode c = some (.bpkUnpackByte c.opa c.opb (byteOf c.opc)) := by
  simp [decode, Command.rsvd, Command.low, h]

theorem decode_bpkUnpackBytes (h : c.cmd = 0x81) : decode c = some (.bpkUnpackBytes c.opa c.opb c.opc c.opd) := by
  simp [decode, Command.rsvd, Command.low, h]

theorem decode_bpkPackByte (h : c.cmd = 0x82) : decode c = some (.bpkPackByte c.opa c.opb c.opc) := by
  simp [decode, Command.rsvd, Command.low, h]

theorem decode_rlrLookup (h : c.cmd = 0xC0) : decode c = some (.rlrLookup (byteOf c.opa) c.opb) := by
  simp [decode, Command.rsvd, Command.low, h]

/-- A message that decodes to a command has that command's word in CMD: RSVD is 0, and the low byte picks the row. -/
theorem cmd_eq_tableWord_of_decode {i : Instr} (h : decode c = some i) : c.cmd = tableWord i := by
  unfold decode at h
  split at h
  · cases h
  · rename_i hr
    rw [c.cmd_eq_append, not_not.1 hr]
    split at h <;> cases h <;> rename_i hlow <;> rw [hlow] <;> rfl


end

/-! ### What the map gives for every CMD value -/

theorem tableWord_mem_legalWords (i : Instr) : tableWord i ∈ Claims.legalWords := by
  cases i <;> simp [tableWord, Claims.legalWords]

theorem decode_of_not_mem_legalWords {c : Command} (h : c.cmd ∉ Claims.legalWords) : decode c = none := by
  refine Option.eq_none_iff_forall_ne_some.2 fun i hi => h ?_
  rw [cmd_eq_tableWord_of_decode hi]
  exact tableWord_mem_legalWords i

/-- Settles O1: a row for each of the twelve words, and a message that decodes has one of them. -/
theorem decodeFollowsTheOpcodeMap : Obligations.DecodeFollowsTheOpcodeMap := by
  unfold Obligations.DecodeFollowsTheOpcodeMap
  intro c
  exact ⟨decode_fwrDecAbcd, decode_fwrDecDcba, decode_fwrDecBadc, decode_fwrDecCdab, decode_fwrEncAbcd,
    decode_fwrEncDcba, decode_fwrEncBadc, decode_fwrEncCdab, decode_bpkUnpackByte, decode_bpkUnpackBytes,
    decode_bpkPackByte, decode_rlrLookup, decode_of_not_mem_legalWords⟩

/-- Settles O5: four rows of the map at zero operands, and a word with a reserved bit set. -/
theorem tableWordsDecode : Obligations.TableWordsDecode := by
  unfold Obligations.TableWordsDecode
  exact ⟨decode_fwrDecAbcd rfl, decode_fwrEncCdab rfl, decode_bpkUnpackBytes rfl, decode_rlrLookup rfl,
    decode_of_not_mem_legalWords (by decide)⟩

/-- Settles O6: the two messages decode by the same row of the map, which takes the operand bits they agree on. -/
theorem ignoredOperandBitsHaveNoEffect : Obligations.IgnoredOperandBitsHaveNoEffect := by
  unfold Obligations.IgnoredOperandBitsHaveNoEffect
  intro c d hcd
  refine ⟨fun h (ha : word16Of c.opa = word16Of d.opa) (hb : word16Of c.opb = word16Of d.opb) => ?_, fun h ha => ?_,
    fun h ha hb (hc : byteOf c.opc = byteOf d.opc) => ?_, fun h ha hb hc => ?_,
    fun h (ha : byteOf c.opa = byteOf d.opa) hb => ?_, fun h => ?_⟩
  · simp only [List.mem_cons, List.not_mem_nil, or_false] at h
    obtain h | h | h | h := h
    · rw [decode_fwrDecAbcd h, decode_fwrDecAbcd (hcd ▸ h), ha, hb]
    · rw [decode_fwrDecDcba h, decode_fwrDecDcba (hcd ▸ h), ha, hb]
    · rw [decode_fwrDecBadc h, decode_fwrDecBadc (hcd ▸ h), ha, hb]
    · rw [decode_fwrDecCdab h, decode_fwrDecCdab (hcd ▸ h), ha, hb]
  · simp only [List.mem_cons, List.not_mem_nil, or_false] at h
    obtain h | h | h | h := h
    · rw [decode_fwrEncAbcd h, decode_fwrEncAbcd (hcd ▸ h), ha]
    · rw [decode_fwrEncDcba h, decode_fwrEncDcba (hcd ▸ h), ha]
    · rw [decode_fwrEncBadc h, decode_fwrEncBadc (hcd ▸ h), ha]
    · rw [decode_fwrEncCdab h, decode_fwrEncCdab (hcd ▸ h), ha]
  · rw [decode_bpkUnpackByte h, decode_bpkUnpackByte (hcd ▸ h), ha, hb, hc]
  · rw [decode_bpkPackByte h, decode_bpkPackByte (hcd ▸ h), ha, hb, hc]
  · rw [decode_rlrLookup h, decode_rlrLookup (hcd ▸ h), ha, hb]
  · rw [decode_of_not_mem_legalWords h, decode_of_not_mem_legalWords (hcd ▸ h)]

end Sys2Proof
end

section
/-! PROOFS. Encoding and decoding are inverse (30_encoding.md R62 to R70, R73). -/

namespace Sys2Proof

open Sys2Proof.Laws

/-! ### What the encoder writes decodes to the command -/

theorem encodedForm (i : Instr) : EncodedForm.Statement i := by
  cases i with
  | fwrDecAbcd w0 w1 => exact EncodedForm.fwrDecAbcd w0 w1
  | fwrDecDcba w0 w1 => exact EncodedForm.fwrDecDcba w0 w1
  | fwrDecBadc w0 w1 => exact EncodedForm.fwrDecBadc w0 w1
  | fwrDecCdab w0 w1 => exact EncodedForm.fwrDecCdab w0 w1
  | fwrEncAbcd v => exact EncodedForm.fwrEncAbcd v
  | fwrEncDcba v => exact EncodedForm.fwrEncDcba v
  | fwrEncBadc v => exact EncodedForm.fwrEncBadc v
  | fwrEncCdab v => exact EncodedForm.fwrEncCdab v
  | bpkUnpackByte dest idx value => exact EncodedForm.bpkUnpackByte dest idx value
  | bpkUnpackBytes dest idx nbBits src => exact EncodedForm.bpkUnpackBytes dest idx nbBits src
  | bpkPackByte src idx nbBits => exact EncodedForm.bpkPackByte src idx nbBits
  | rlrLookup fc payload => exact EncodedForm.rlrLookup fc payload

theorem decode_encode (i : Instr) : decode (encode i) = some i := by
  have hcmd := (encodedForm i).1
  cases i with
  | fwrDecAbcd w0 w1 => exact (decode_fwrDecAbcd hcmd).trans (by simp [encode, encodeFwrDec])
  | fwrDecDcba w0 w1 => exact (decode_fwrDecDcba hcmd).trans (by simp [encode, encodeFwrDec])
  | fwrDecBadc w0 w1 => exact (decode_fwrDecBadc hcmd).trans (by simp [encode, encodeFwrDec])
  | fwrDecCdab w0 w1 => exact (decode_fwrDecCdab hcmd).trans (by simp [encode, encodeFwrDec])
  | fwrEncAbcd v => exact decode_fwrEncAbcd hcmd
  | fwrEncDcba v => exact decode_fwrEncDcba hcmd
  | fwrEncBadc v => exact decode_fwrEncBadc hcmd
  | fwrEncCdab v => exact decode_fwrEncCdab hcmd
  | bpkUnpackByte dest idx value => exact (decode_bpkUnpackByte hcmd).trans (by simp [encode])
  | bpkUnpackBytes dest idx nbBits src => exact decode_bpkUnpackBytes hcmd
  | bpkPackByte src idx nbBits => exact decode_bpkPackByte hcmd
  | rlrLookup fc payload => exact (decode_rlrLookup hcmd).trans (by simp [encode])

/-- Settles O3: the encoder writes the word of the command's row, and a narrow operand survives its operand word. -/
theorem decodeOfEncodeIsTheCommand : Obligations.DecodeOfEncodeIsTheCommand := by
  unfold Obligations.DecodeOfEncodeIsTheCommand
  exact decode_encode

/-! ### A message from its fields -/

/-- CMD is the word of its fields when RSVD is 0 (R62). -/
theorem Command.cmd_eq_cmdWord {c : Command} (h : c.rsvd = 0) : c.cmd = cmdWord c.unit c.ord c.sub := by
  have hrsvd : 0#24 = c.cmd.extractLsb' 8 24 := h.symm
  rw [cmdWord, hrsvd, Command.unit, Command.ord, Command.sub]
  rw [BitVec.extractLsb'_append_extractLsb'_eq_extractLsb' (show 8 = 6 + 2 from rfl),
    BitVec.extractLsb'_append_extractLsb'_eq_extractLsb' (show 6 = 4 + 2 from rfl),
    BitVec.extractLsb'_append_extractLsb'_eq_extractLsb' (show 4 = 0 + 4 from rfl), BitVec.extractLsb'_eq_self]

theorem Command.mk_eq_of_fields {c : Command} {cmd opa opb opc opd : Word32} (hcmd : c.cmd = cmd) (ha : opa = c.opa)
    (hb : opb = c.opb) (hc : opc = c.opc) (hd : opd = c.opd) : Command.mk cmd opa opb opc opd = c := by
  rw [← hcmd, ha, hb, hc, hd]

theorem bitVec2_cases (b : BitVec 2) : b = 0#2 ∨ b = 1#2 ∨ b = 2#2 ∨ b = 3#2 := by
  revert b
  decide

theorem exists_encode_eq_encodeFwrDec (ord : BitVec 2) (w0 w1 : Word16) : ∃ i, encode i = encodeFwrDec ord w0 w1 := by
  obtain rfl | rfl | rfl | rfl := bitVec2_cases ord
  · exact ⟨.fwrDecAbcd w0 w1, rfl⟩
  · exact ⟨.fwrDecDcba w0 w1, rfl⟩
  · exact ⟨.fwrDecBadc w0 w1, rfl⟩
  · exact ⟨.fwrDecCdab w0 w1, rfl⟩

theorem exists_encode_eq_encodeFwrEnc (ord : BitVec 2) (v : Word32) : ∃ i, encode i = encodeFwrEnc ord v := by
  obtain rfl | rfl | rfl | rfl := bitVec2_cases ord
  · exact ⟨.fwrEncAbcd v, rfl⟩
  · exact ⟨.fwrEncDcba v, rfl⟩
  · exact ⟨.fwrEncBadc v, rfl⟩
  · exact ⟨.fwrEncCdab v, rfl⟩

/-! ### What a legal and a well-formed message are, unit by unit (R63 to R66, R70) -/

section
variable {c : Command}

theorem Command.not_legal_of_unit_zero (hu : c.unit = 0#2) : c.legal = false := by
  simp [Command.legal, hu]

theorem Command.legal_iff_of_fwr (hu : c.unit = 1#2) :
    c.legal = true ↔ c.rsvd = 0 ∧ c.sub.extractLsb' 1 3 = 0 := by
  simp [Command.legal, hu]

theorem Command.legal_iff_of_bpk (hu : c.unit = 2#2) :
    c.legal = true ↔ c.rsvd = 0 ∧ c.ord = 0 ∧ c.sub.toNat < 3 := by
  simp [Command.legal, hu]

theorem Command.legal_iff_of_rlr (hu : c.unit = 3#2) : c.legal = true ↔ c.rsvd = 0 ∧ c.ord = 0 ∧ c.sub = 0 := by
  simp [Command.legal, hu]

theorem Command.ignoredZero_iff_of_fwrDec (hu : c.unit = 1#2) (hs : c.sub = 0#4) :
    c.ignoredZero = true ↔ aboveWord16 c.opa = 0 ∧ aboveWord16 c.opb = 0 ∧ c.opc = 0 ∧ c.opd = 0 := by
  simp [Command.ignoredZero, hu, hs, and_assoc]

theorem Command.ignoredZero_iff_of_fwrEnc (hu : c.unit = 1#2) (hs : c.sub = 1#4) :
    c.ignoredZero = true ↔ c.opb = 0 ∧ c.opc = 0 ∧ c.opd = 0 := by
  simp [Command.ignoredZero, hu, hs, and_assoc]

theorem Command.ignoredZero_iff_of_unpackByte (hu : c.unit = 2#2) (hs : c.sub = 0#4) :
    c.ignoredZero = true ↔ aboveByte c.opc = 0 ∧ c.opd = 0 := by
  simp [Command.ignoredZero, hu, hs]

theorem Command.ignoredZero_iff_of_packByte (hu : c.unit = 2#2) (hs : c.sub = 2#4) :
    c.ignoredZero = true ↔ c.opd = 0 := by
  simp [Command.ignoredZero, hu, hs]

theorem Command.ignoredZero_iff_of_rlr (hu : c.unit = 3#2) :
    c.ignoredZero = true ↔ aboveByte c.opa = 0 ∧ c.opc = 0 ∧ c.opd = 0 := by
  simp [Command.ignoredZero, hu, and_assoc]

theorem fwr_sub_cases {b : BitVec 4} (h : b.extractLsb' 1 3 = 0) : b = 0#4 ∨ b = 1#4 := by
  revert b
  decide

theorem bpk_sub_cases {b : BitVec 4} (h : b.toNat < 3) : b = 0#4 ∨ b = 1#4 ∨ b = 2#4 := by
  revert b
  decide

/-! ### A well-formed message is what the encoder writes -/

theorem exists_encode_of_fwr (hu : c.unit = 1#2) (hlegal : c.legal = true) (hzero : c.ignoredZero = true) :
    ∃ i, encode i = c := by
  obtain ⟨hrsvd, hsub⟩ := (Command.legal_iff_of_fwr hu).1 hlegal
  have hcmd := Command.cmd_eq_cmdWord hrsvd
  rw [hu] at hcmd
  obtain hs | hs := fwr_sub_cases hsub
  · obtain ⟨ha, hb, hc, hd⟩ := (Command.ignoredZero_iff_of_fwrDec hu hs).1 hzero
    obtain ⟨i, hi⟩ := exists_encode_eq_encodeFwrDec c.ord (word16Of c.opa) (word16Of c.opb)
    exact ⟨i, hi.trans <| Command.mk_eq_of_fields (hs ▸ hcmd) (zext32_word16Of ha)
      (zext32_word16Of hb) hc.symm hd.symm⟩
  · obtain ⟨hb, hc, hd⟩ := (Command.ignoredZero_iff_of_fwrEnc hu hs).1 hzero
    obtain ⟨i, hi⟩ := exists_encode_eq_encodeFwrEnc c.ord c.opa
    exact ⟨i, hi.trans (Command.mk_eq_of_fields (hs ▸ hcmd) rfl hb.symm hc.symm hd.symm)⟩

theorem exists_encode_of_bpk (hu : c.unit = 2#2) (hlegal : c.legal = true) (hzero : c.ignoredZero = true) :
    ∃ i, encode i = c := by
  obtain ⟨hrsvd, ho, hsub⟩ := (Command.legal_iff_of_bpk hu).1 hlegal
  have hcmd := Command.cmd_eq_cmdWord hrsvd
  rw [hu, ho] at hcmd
  obtain hs | hs | hs := bpk_sub_cases hsub
  · obtain ⟨hc, hd⟩ := (Command.ignoredZero_iff_of_unpackByte hu hs).1 hzero
    exact ⟨.bpkUnpackByte c.opa c.opb (byteOf c.opc),
      Command.mk_eq_of_fields (hs ▸ hcmd) rfl rfl (zext32_byteOf hc) hd.symm⟩
  · exact ⟨.bpkUnpackBytes c.opa c.opb c.opc c.opd, Command.mk_eq_of_fields (hs ▸ hcmd) rfl rfl rfl rfl⟩
  · have hd := (Command.ignoredZero_iff_of_packByte hu hs).1 hzero
    exact ⟨.bpkPackByte c.opa c.opb c.opc, Command.mk_eq_of_fields (hs ▸ hcmd) rfl rfl rfl hd.symm⟩

theorem exists_encode_of_rlr (hu : c.unit = 3#2) (hlegal : c.legal = true) (hzero : c.ignoredZero = true) :
    ∃ i, encode i = c := by
  obtain ⟨hrsvd, ho, hs⟩ := (Command.legal_iff_of_rlr hu).1 hlegal
  have hcmd := Command.cmd_eq_cmdWord hrsvd
  rw [hu, ho, hs] at hcmd
  obtain ⟨ha, hc, hd⟩ := (Command.ignoredZero_iff_of_rlr hu).1 hzero
  exact ⟨.rlrLookup (byteOf c.opa) c.opb, Command.mk_eq_of_fields hcmd (zext32_byteOf ha) rfl hc.symm hd.symm⟩

theorem exists_encode_of_wellFormed (h : c.wellFormed = true) : ∃ i, encode i = c := by
  obtain ⟨hlegal, hzero⟩ := Bool.and_eq_true_iff.1 h
  obtain hu | hu | hu | hu := bitVec2_cases c.unit
  · simp [Command.not_legal_of_unit_zero hu] at hlegal
  · exact exists_encode_of_fwr hu hlegal hzero
  · exact exists_encode_of_bpk hu hlegal hzero
  · exact exists_encode_of_rlr hu hlegal hzero

end

/-- Settles O4: a well-formed message is what the encoder writes for some command, which it then decodes to. -/
theorem encodeOfDecodeIsTheMessage : Obligations.EncodeOfDecodeIsTheMessage := by
  unfold Obligations.EncodeOfDecodeIsTheMessage
  refine fun c => ⟨fun h => ?_, ?_⟩
  · obtain ⟨i, rfl⟩ := exists_encode_of_wellFormed h
    exact ⟨i, decode_encode i, rfl⟩
  · rintro ⟨i, -, rfl⟩
    exact (encodedForm i).2

end Sys2Proof
end

section
/-! PROOFS. The illegal commands (30_encoding.md R68): the legal words are the legal choices of fields, every other
message decodes to nothing, and an illegal command in flight answers ERR_ILLEGAL. -/

namespace Sys2Proof

open Sys2Proof.Claims Sys2Proof.Machine

/-! ### The legal words -/

theorem decode_ne_none_of_mem_legalWords {c : Command} (h : c.cmd ∈ legalWords) : decode c ≠ none := by
  simp only [legalWords, List.mem_cons, List.not_mem_nil, or_false] at h
  obtain h | h | h | h | h | h | h | h | h | h | h | h := h
  · simp [decode_fwrDecAbcd h]
  · simp [decode_fwrEncAbcd h]
  · simp [decode_fwrDecDcba h]
  · simp [decode_fwrEncDcba h]
  · simp [decode_fwrDecBadc h]
  · simp [decode_fwrEncBadc h]
  · simp [decode_fwrDecCdab h]
  · simp [decode_fwrEncCdab h]
  · simp [decode_bpkUnpackByte h]
  · simp [decode_bpkUnpackBytes h]
  · simp [decode_bpkPackByte h]
  · simp [decode_rlrLookup h]

theorem decode_eq_none_iff_not_mem_legalWords {c : Command} : decode c = none ↔ c.cmd ∉ legalWords :=
  ⟨fun hd hmem => decode_ne_none_of_mem_legalWords hmem hd, decode_of_not_mem_legalWords⟩

theorem Command.legal_congr {c d : Command} (h : c.cmd = d.cmd) : c.legal = d.legal :=
  congrArg (fun w => (Command.mk w 0 0 0 0).legal) h

/-- A legal command word with operands of 0 is well-formed. -/
theorem wellFormed_of_legal {c : Command} (h : c.legal = true) :
    (Command.mk c.cmd 0 0 0 0).wellFormed = true := by
  have hzero : (Command.mk c.cmd 0 0 0 0).ignoredZero = true := by
    unfold Command.ignoredZero
    split_ifs <;> simp [aboveWord16, aboveByte]
  exact Bool.and_eq_true_iff.2 ⟨h, hzero⟩

/-- The decoder knows exactly the legal choices of fields: with operands of 0 such a message is some command's, and what
decodes has the word the encoder writes. -/
theorem decode_eq_none_iff_not_legal {c : Command} : decode c = none ↔ c.legal = false := by
  rw [← Bool.not_eq_true, decode_eq_none_iff_not_mem_legalWords, not_iff_not]
  constructor
  · intro hmem
    obtain ⟨i, hi⟩ := Option.ne_none_iff_exists'.1 (decode_ne_none_of_mem_legalWords hmem)
    have hcmd : c.cmd = (encode i).cmd := (cmd_eq_tableWord_of_decode hi).trans (encodedForm i).1.symm
    have hlegal : (encode i).legal = true := (Bool.and_eq_true_iff.1 (encodedForm i).2).1
    rw [Command.legal_congr hcmd, hlegal]
  · intro hlegal
    obtain ⟨i, hi⟩ := exists_encode_of_wellFormed (wellFormed_of_legal hlegal)
    have hcmd : c.cmd = Laws.EncodedForm.tableWord i := by rw [← (encodedForm i).1, hi]
    rw [hcmd]
    exact tableWord_mem_legalWords i

/-! ### The five kinds of illegal word (R68) -/

theorem Command.extractLsb'_sub (c : Command) : c.sub.extractLsb' 1 3 = c.cmd.extractLsb' 1 3 :=
  BitVec.extractLsb'_extractLsb'_of_le (by decide)

theorem Command.extractLsb'_cmd_eq_zero_iff (c : Command) :
    c.cmd.extractLsb' 0 6 = 0 ↔ c.ord = 0 ∧ c.sub = 0 := by
  have happend : c.cmd.extractLsb' 0 6 = c.ord ++ c.sub :=
    (BitVec.extractLsb'_append_extractLsb'_eq_extractLsb' (show 4 = 0 + 4 from rfl)).symm
  rw [happend]
  generalize c.ord = ord
  generalize c.sub = sub
  revert ord sub
  decide

/-- R68's list, kind by kind: the reserved bits, then what each unit refuses. -/
theorem legal_eq_false_iff_fiveKinds (c : Command) :
    c.legal = false ↔
      c.rsvd ≠ 0 ∨ c.unit = 0#2 ∨ (c.unit = 1#2 ∧ c.cmd.extractLsb' 1 3 ≠ 0) ∨
      (c.unit = 2#2 ∧ (c.ord ≠ 0 ∨ 3 ≤ c.sub.toNat)) ∨ (c.unit = 3#2 ∧ c.cmd.extractLsb' 0 6 ≠ 0) := by
  rw [← c.extractLsb'_sub, ne_eq (c.cmd.extractLsb' 0 6), c.extractLsb'_cmd_eq_zero_iff]
  obtain hu | hu | hu | hu := bitVec2_cases c.unit
  · simp [hu, Command.not_legal_of_unit_zero hu]
  · rw [← Bool.not_eq_true, Command.legal_iff_of_fwr hu]
    simp [hu, imp_iff_not_or]
  · rw [← Bool.not_eq_true, Command.legal_iff_of_bpk hu]
    simp [hu, imp_iff_not_or]
  · rw [← Bool.not_eq_true, Command.legal_iff_of_rlr hu]
    simp [hu, imp_iff_not_or]

/-! ### What an illegal command does (R68, R153) -/

section
variable {c : Command} {s : State}

theorem planCommand_of_illegal (h : decode c = none) : planCommand c s = illegalPlan := by
  simp only [planCommand, h]

theorem runCommand_answers_of_illegal (h : decode c = none) :
    runCommand c s = .next (s.deliver illegalPlan.response) := by
  rw [runCommand_of_illegal h, execIllegal, illegalPlan, complete_no_access]

end

/-- Settles O2: the decoder refuses the words outside the map, which are the illegal choices of fields, and an illegal
command's plan touches no memory. -/
theorem illegalCommandsAreTheFiveKinds : Obligations.IllegalCommandsAreTheFiveKinds := by
  unfold Obligations.IllegalCommandsAreTheFiveKinds
  refine ⟨rfl, by decide, fun c => ⟨decode_eq_none_iff_not_mem_legalWords,
    decode_eq_none_iff_not_legal.trans (legal_eq_false_iff_fiveKinds c), fun h s => ?_⟩⟩
  rw [planCommand_of_illegal h]
  exact ⟨rfl, rfl, fun hp q hq => step_of_present_ready hq hp, runCommand_answers_of_illegal h⟩

end Sys2Proof
end

section
/-! PROOFS. The assembler (30_encoding.md R73, R74): each form takes operands that fit their fields. -/

namespace Sys2Proof.Machine

open Sys2Proof.Claims

/-! ### What each form gives for its own operand count -/

theorem assembleDec_pair (f : Word16 → Word16 → Instr) (w0 w1 : Nat) :
    assembleDec f [w0, w1] =
      if w0 < 2 ^ 16 ∧ w1 < 2 ^ 16 then some (f (BitVec.ofNat 16 w0) (BitVec.ofNat 16 w1)) else none := by
  rw [assembleDec, fits_bind, fits_map, ite_and]

theorem assembleEnc_one (f : Word32 → Instr) (v : Nat) :
    assembleEnc f [v] = if v < 2 ^ 32 then some (f (BitVec.ofNat 32 v)) else none := by
  rw [assembleEnc, fits_map]

theorem assembleUnpackByte_triple (d x v : Nat) :
    assembleUnpackByte [d, x, v] =
      if d < 2 ^ 32 ∧ x < 2 ^ 32 ∧ v < 2 ^ 8 then
        some (.bpkUnpackByte (BitVec.ofNat 32 d) (BitVec.ofNat 32 x) (BitVec.ofNat 8 v)) else none := by
  rw [assembleUnpackByte, fits_bind, fits_bind, fits_map, ite_and, ite_and]

theorem assembleUnpackBytes_quadruple (d x n p : Nat) :
    assembleUnpackBytes [d, x, n, p] =
      if d < 2 ^ 32 ∧ x < 2 ^ 32 ∧ n < 2 ^ 32 ∧ p < 2 ^ 32 then
        some (.bpkUnpackBytes (BitVec.ofNat 32 d) (BitVec.ofNat 32 x) (BitVec.ofNat 32 n) (BitVec.ofNat 32 p))
      else none := by
  rw [assembleUnpackBytes, fits_bind, fits_bind, fits_bind, fits_map, ite_and, ite_and, ite_and]

theorem assemblePackByte_triple (p x n : Nat) :
    assemblePackByte [p, x, n] =
      if p < 2 ^ 32 ∧ x < 2 ^ 32 ∧ n < 2 ^ 32 then
        some (.bpkPackByte (BitVec.ofNat 32 p) (BitVec.ofNat 32 x) (BitVec.ofNat 32 n)) else none := by
  rw [assemblePackByte, fits_bind, fits_bind, fits_map, ite_and, ite_and]

theorem assemblePack8_pair (p x : Nat) : assemblePack8 [p, x] = assemblePackByte [p, x, 8] := rfl

theorem assembleLookup_pair (f p : Nat) :
    assembleLookup [f, p] =
      if f < 2 ^ 8 ∧ p < 2 ^ 32 then some (.rlrLookup (BitVec.ofNat 8 f) (BitVec.ofNat 32 p)) else none := by
  rw [assembleLookup, fits_bind, fits_map, ite_and]

/-- An unknown mnemonic, or a mnemonic with another operand count than its own, is refused (R73). -/
theorem assembleWords_of_not_mem {mnemonic : List Char} {operands : List Nat}
    (h : (mnemonic, operands.length) ∉ mnemonicsAndCounts) : assembleWords mnemonic operands = none := by
  have hcount : ∀ p ∈ mnemonicsAndCounts, mnemonic = p.1 → operands.length ≠ p.2 := by
    rintro p hp rfl hlen
    exact h (hlen ▸ hp)
  rw [mnemonicsAndCounts] at hcount
  repeat rw [List.forall_mem_cons] at hcount
  obtain ⟨h1, h2, h3, h4, h5, h6, h7, h8, h9, h10, h11, h12, h13, -⟩ := hcount
  unfold assembleWords
  refine ite_eq_iff'.2 ⟨fun m => assembleDec_count (h1 m), fun _ => ?_⟩
  refine ite_eq_iff'.2 ⟨fun m => assembleDec_count (h2 m), fun _ => ?_⟩
  refine ite_eq_iff'.2 ⟨fun m => assembleDec_count (h3 m), fun _ => ?_⟩
  refine ite_eq_iff'.2 ⟨fun m => assembleDec_count (h4 m), fun _ => ?_⟩
  refine ite_eq_iff'.2 ⟨fun m => assembleEnc_count (h5 m), fun _ => ?_⟩
  refine ite_eq_iff'.2 ⟨fun m => assembleEnc_count (h6 m), fun _ => ?_⟩
  refine ite_eq_iff'.2 ⟨fun m => assembleEnc_count (h7 m), fun _ => ?_⟩
  refine ite_eq_iff'.2 ⟨fun m => assembleEnc_count (h8 m), fun _ => ?_⟩
  refine ite_eq_iff'.2 ⟨fun m => assembleUnpackByte_count (h9 m), fun _ => ?_⟩
  refine ite_eq_iff'.2 ⟨fun m => assembleUnpackBytes_count (h10 m), fun _ => ?_⟩
  refine ite_eq_iff'.2 ⟨fun m => assemblePackByte_count (h11 m), fun _ => ?_⟩
  refine ite_eq_iff'.2 ⟨fun m => assemblePack8_count (h12 m), fun _ => ?_⟩
  refine ite_eq_iff'.2 ⟨fun m => assembleLookup_count (h13 m), fun _ => ?_⟩
  rfl

/-- Settles O8: the pseudo-instruction's form is PACK_BYTE's with a count of 8. -/
theorem pack8ExpandsToPackByte : Obligations.Pack8ExpandsToPackByte := by
  unfold Obligations.Pack8ExpandsToPackByte
  intro src idx
  rw [assembleWords_bpk_pack8, assembleWords_bpk_pack_byte, assemblePack8_pair]

/-- Settles O7: a mnemonic picks its form, which gives its operands their fields; nothing else assembles. -/
theorem assemblerChecksOperandWidths : Obligations.AssemblerChecksOperandWidths := by
  unfold Obligations.AssemblerChecksOperandWidths
  refine ⟨assembleDec_pair _, assembleDec_pair _, assembleDec_pair _, assembleDec_pair _,
    assembleEnc_one _, assembleEnc_one _, assembleEnc_one _, assembleEnc_one _,
    assembleUnpackByte_triple, assembleUnpackBytes_quadruple, assemblePackByte_triple, fun p x => ?_,
    assembleLookup_pair, fun _ _ => assembleWords_of_not_mem⟩
  rw [pack8ExpandsToPackByte, assembleWords_bpk_pack_byte, assemblePackByte_triple]
  simp

end Sys2Proof.Machine
end

section
/-! PROOFS. The length ROM (41_rlr.md R80 to R89): RLR.LOOKUP writes nothing and reads at most the two quantity bytes, so
it answers the length of its class or faults at the first of the two that is not admitted. -/

namespace Sys2Proof.Machine

open Sys2Proof.Claims

/-- Settles O14: each of the 256 codes is looked up in the twelve rows. -/
theorem romHoldsTheFunctionCodeTable : Obligations.RomHoldsTheFunctionCodeTable := by
  unfold Obligations.RomHoldsTheFunctionCodeTable
  exact ⟨rfl, by decide⟩

/-! ### How a command that writes nothing ends -/

/-- A command that writes nothing and whose reads are admitted answers, and changes nothing else (R13, R71). -/
theorem answersOnly_of_reads_admitted {i : Instr} {s : State} (hw : (planOf i s).writes = [])
    (hr : ∀ a ∈ (planOf i s).reads, s.readable a = true) : AnswersOnly i s (planOf i s).response := by
  have hn : (planOf i s).contractFault s = none := by
    simpa [Plan.contractFault_eq_none, Plan.writeSet, hw] using hr
  rw [AnswersOnly, exec_eq_complete, complete_of_none hn, hw]
  rfl

/-- A contract fault with an empty write set leaves every byte and every draw alone (R152). -/
theorem State.raise_nil (s : State) (f : ContractFault) :
    s.raise f [] = { s with port := .lost f, response := none, contractFaults := s.contractFaults ++ [f] } := rfl

/-- A memory that agrees on the read set gives a command the same plan (R3). -/
theorem planOf_withMem {i : Instr} {s : State} {m : Memory}
    (h : ∀ a ∈ (planOf i s).reads, m.read a = s.mem.read a) : planOf i { s with mem := m } = planOf i s :=
  (planOf_congr i (s := s) (t := { s with mem := m }) rfl fun a ha => (h a ha).symm).symm

/-- The response of a command that has one is its plan's. -/
theorem response_eq_of_exec {i : Instr} {s t : State} {r : Response} (h : exec i s = .next t)
    (hr : t.response = some r) : r = (planOf i s).response := by
  rw [exec_eq_complete] at h
  cases h
  obtain ⟨-, e⟩ | ⟨f, -, e⟩ := complete_cases (planOf i s) s
  · simpa [e] using hr.symm
  · simp [e] at hr

/-! ### The quantity bytes (R82, R87) -/

theorem quantityAddrs_eq_nil {cls : LengthClass} (payload : Word32) (hb : cls ≠ .bits) (hr : cls ≠ .regs) :
    quantityAddrs cls payload = [] :=
  List.eq_nil_iff_forall_not_mem.2 fun _ ha => (mem_quantityAddrs.1 ha).1.elim hb hr

theorem readable_of_mem_quantityAddrs {s : State} {cls : LengthClass} {payload : Word32}
    (h2 : s.readable (payload.toNat + 2) = true) (h3 : s.readable (payload.toNat + 3) = true) :
    ∀ a ∈ quantityAddrs cls payload, s.readable a = true := by
  intro a ha
  obtain ⟨-, rfl | rfl⟩ := mem_quantityAddrs.1 ha
  · exact h2
  · exact h3

theorem payloadQuantity_eq (m : Memory) (payload : Word32) :
    payloadQuantity m payload = (m.read (payload.toNat + 2) ++ m.read (payload.toNat + 3) : BitVec (8 + 8)).toNat := rfl

/-! ### The plan of RLR.LOOKUP (R85) -/

section
variable (fc : Byte) (payload : Word32) (s : State)

theorem planOf_rlrLookup_reads : (planOf (.rlrLookup fc payload) s).reads = quantityAddrs (s.rom.entry fc) payload := rfl

theorem planOf_rlrLookup_writes : (planOf (.rlrLookup fc payload) s).writes = [] := rfl

theorem planOf_rlrLookup_response :
    (planOf (.rlrLookup fc payload) s).response =
      lengthResponse ((s.rom.entry fc).length (payloadQuantity s.mem payload)) := rfl

end

section
variable {fc : Byte} {payload : Word32} {s : State} {cls : LengthClass}

/-- With the quantity bytes of its class admitted, RLR.LOOKUP answers the length of the class. -/
theorem lookup_answers (hcls : s.rom.entry fc = cls) (hr : ∀ a ∈ quantityAddrs cls payload, s.readable a = true) :
    AnswersOnly (.rlrLookup fc payload) s (lengthResponse (cls.length (payloadQuantity s.mem payload))) := by
  subst hcls
  exact answersOnly_of_reads_admitted rfl hr

/-- A class that reads nothing answers whatever is admitted (R87). -/
theorem lookup_answers_of_no_reads (hcls : s.rom.entry fc = cls) (hb : cls ≠ .bits) (hr : cls ≠ .regs) :
    AnswersOnly (.rlrLookup fc payload) s (lengthResponse (cls.length (payloadQuantity s.mem payload))) :=
  lookup_answers hcls (by simp [quantityAddrs_eq_nil payload hb hr])

/-- A quantity byte that is not admitted is RLR.LOOKUP's contract fault, and nothing else changes (R44). -/
theorem lookup_faults {k : Nat} (hcls : s.rom.entry fc = .bits ∨ s.rom.entry fc = .regs)
    (h : FirstNotAdmitted s.readable (payload.toNat + 2 + ·) 2 k) :
    exec (.rlrLookup fc payload) s =
      .next { s with
        port := .lost ⟨.access, payload.toNat + 2 + k⟩
        response := none
        contractFaults := s.contractFaults ++ [⟨.access, payload.toNat + 2 + k⟩] } := by
  have hf : (planOf (.rlrLookup fc payload) s).contractFault s = some ⟨.access, payload.toNat + 2 + k⟩ :=
    contractFault_of_reads (quantityAddrs_eq_map_range payload hcls) h
  have hw : (planOf (.rlrLookup fc payload) s).writeSet = [] := rfl
  rw [exec_eq_complete, complete_of_some hf, hw, State.raise_nil]

end

/-! ### The length of a class (R81, R83, R84) -/

/-- A response tagged Known carries the number in RES0 (R84). -/
theorem known_of_lengthResponse_res1 {l : Length} (h : (lengthResponse l).res1 = 0) :
    ∃ n, l = .known n ∧ (lengthResponse l).res0 = BitVec.ofNat 32 n := by
  cases l with
  | known n => exact ⟨n, rfl, rfl⟩
  | unknown => simp [lengthResponse] at h

/-- The bounds of a Known length for a 16-bit quantity (R83). -/
theorem LengthClass.length_bounds {cls : LengthClass} {nb n : Nat} (hnb : nb ≤ 65535)
    (h : cls.length nb = .known n) : 2 ≤ n ∧ n ≤ 131072 ∧ (cls = .bits → n ≤ 8194) := by
  cases cls with
  | bits =>
    obtain rfl : 2 + ceilDiv nb 8 = n := Length.known.inj h
    have hceil : ceilDiv nb 8 ≤ 8192 := by
      unfold ceilDiv
      omega
    exact ⟨by omega, by omega, fun _ => by omega⟩
  | regs =>
    obtain rfl : 2 + 2 * nb = n := Length.known.inj h
    exact ⟨by omega, by omega, nofun⟩
  | unknown => cases h
  | _ =>
    cases h
    decide

/-- A number below `2 ^ 18` has bits 31 to 18 clear. -/
theorem extractLsb'_above18_eq_zero {w : Word32} (h : w.toNat < 2 ^ 18) : w.extractLsb' 18 14 = 0 := by
  apply BitVec.eq_of_toNat_eq
  rw [BitVec.extractLsb'_toNat, Nat.shiftRight_eq_div_pow, Nat.div_eq_of_lt h]
  rfl

/-- Settles O16: a Known response carries the length of the class, which a 16-bit quantity bounds. -/
theorem knownLengthsAreExactAndBounded : Obligations.KnownLengthsAreExactAndBounded := by
  unfold Obligations.KnownLengthsAreExactAndBounded
  intro s t fc payload r hexec hr hres1
  obtain rfl := response_eq_of_exec hexec hr
  rw [planOf_rlrLookup_response] at hres1 ⊢
  obtain ⟨n, hlen, hres0⟩ := known_of_lengthResponse_res1 hres1
  obtain ⟨hlow, hhigh, hbits⟩ := LengthClass.length_bounds (Nat.le_of_lt_succ (BitVec.isLt _)) hlen
  rw [payloadQuantity_eq] at hlen
  have hn : (BitVec.ofNat 32 n).toNat = n := Nat.mod_eq_of_lt (by omega)
  rw [hres0, hn]
  refine ⟨hlow, hhigh, extractLsb'_above18_eq_zero (by omega), hlen, hbits, ?_, ?_, ?_, rfl, rfl, rfl, rfl⟩
  all_goals
    intro hcls
    rw [hcls] at hlen
    cases hlen
    rfl

/-- Settles O17: the plan is a function of the ROM and of the bytes of its read set. -/
theorem lookupReadsOnlyTheQuantity : Obligations.LookupReadsOnlyTheQuantity := by
  unfold Obligations.LookupReadsOnlyTheQuantity
  intro s fc payload m
  refine ⟨planOf_rlrLookup_writes fc payload s, fun hcls => ?_, fun hb hr => ?_⟩
  · have hreads : (planOf (.rlrLookup fc payload) s).reads = [payload.toNat + 2, payload.toNat + 3] :=
      (planOf_rlrLookup_reads fc payload s).trans (quantityAddrs_eq_map_range payload hcls)
    refine ⟨hreads, fun h2 h3 => planOf_withMem ?_⟩
    simp [hreads, h2, h3]
  · have hreads : (planOf (.rlrLookup fc payload) s).reads = [] :=
      (planOf_rlrLookup_reads fc payload s).trans (quantityAddrs_eq_nil payload hb hr)
    refine ⟨hreads, planOf_withMem ?_, _, lookup_answers_of_no_reads rfl hb hr⟩
    simp [hreads]

/-- Settles O15, class by class: the admitted plan answers the class's length for the quantity. -/
theorem lookupRespondsWithTheLength : Obligations.LookupRespondsWithTheLength := by
  unfold Obligations.LookupRespondsWithTheLength
  intro s fc payload
  refine ⟨fun _ h2 h3 => ?_, fun h => lookup_answers_of_no_reads h nofun nofun,
    fun h => lookup_answers_of_no_reads h nofun nofun, fun h => lookup_answers_of_no_reads h nofun nofun,
    fun h => lookup_answers_of_no_reads h nofun nofun⟩
  have hread {cls : LengthClass} : ∀ a ∈ quantityAddrs cls payload, s.readable a = true :=
    readable_of_mem_quantityAddrs h2 h3
  exact ⟨payloadQuantity s.mem payload, payloadQuantity_eq s.mem payload, fun hb => lookup_answers hb hread,
    fun hr => lookup_answers hr hread⟩

/-- Settles O18: of the two quantity bytes, the lower one that is not admitted is found first. -/
theorem lookupFaultsOnAShortPayload : Obligations.LookupFaultsOnAShortPayload := by
  unfold Obligations.LookupFaultsOnAShortPayload
  intro s fc payload hcls hbad
  by_cases h2 : s.readable (payload.toNat + 2) = false
  · have hfirst : FirstNotAdmitted s.readable (payload.toNat + 2 + ·) 2 0 := ⟨by omega, h2, nofun⟩
    exact ⟨_, rfl, (if_pos h2).symm, lookup_faults hcls hfirst⟩
  · have h3 : s.readable (payload.toNat + 3) = false := hbad.resolve_left h2
    have hfirst : FirstNotAdmitted s.readable (payload.toNat + 2 + ·) 2 1 := by
      refine ⟨by omega, h3, fun j hj => ?_⟩
      obtain rfl := Nat.lt_one_iff.1 hj
      exact Bool.eq_true_of_not_eq_false h2
    exact ⟨_, rfl, (if_neg h2).symm, lookup_faults hcls hfirst⟩

end Sys2Proof.Machine
end

section
/-! PROOFS. The BitPacker (42_bpk.md R100 to R111): what each command leaves in its entries and in its response, from
when it keeps its contract and what it then writes, and the round trips that follow. -/

namespace Sys2Proof.Machine

open Sys2Proof.Claims

/-! ### How a command that keeps its contract ends -/

/-- A command that keeps its contract answers its plan's response, and nothing else but memory changes (R13, R71). -/
theorem answersInto_complete {i : Instr} {s : State} (hn : (planOf i s).contractFault s = none) :
    AnswersInto i s (planOf i s).response (complete (planOf i s) s) :=
  ⟨exec_eq_complete i s, by rw [complete_of_none hn]; rfl⟩

/-- The state a command answers is its completed plan. -/
theorem eq_complete_of_exec {i : Instr} {s t : State} (h : exec i s = .next t) : t = complete (planOf i s) s := by
  rw [exec_eq_complete] at h
  cases h
  rfl

/-! ### Entries, their bits and their addresses (R100, R109) -/

/-- The entries of a span of `n` are its `n` consecutive bytes. -/
theorem exists_entryAddr_iff {base idx : Word32} {n a : Nat} :
    (∃ k < n, a = entryAddr base idx k) ↔ base.toNat + idx.toNat ≤ a ∧ a < base.toNat + idx.toNat + n := by
  unfold entryAddr
  constructor
  · rintro ⟨k, hk, rfl⟩
    omega
  · rintro ⟨hlow, hhigh⟩
    exact ⟨a - (base.toNat + idx.toNat), by omega, by omega⟩

/-- An index moved up by `m` inside the words moves every entry by `m`. -/
theorem entryAddr_add_index {base idx : Word32} {m : Nat} (h : idx.toNat + m < 2 ^ 32) (k : Nat) :
    entryAddr base (BitVec.ofNat 32 (idx.toNat + m)) k = entryAddr base idx (m + k) := by
  unfold entryAddr
  rw [BitVec.toNat_ofNat, Nat.mod_eq_of_lt h]
  omega

/-- An entry packed and unpacked again keeps whether it is zero (R100). -/
theorem entryOfBit_bitOfEntry (e : Byte) : entryOfBit (bitOfEntry e) = if e = 0 then 0 else 1 := by
  by_cases h : e = 0 <;> simp [bitOfEntry, entryOfBit, h]

/-- Eight entries that hold the bits of a byte pack to the byte (R100, R103). -/
theorem packedByte_eq_of_entries {m : Memory} {src idx : Word32} {b : Byte}
    (h : ∀ k < 8, m.read (entryAddr src idx k) = entryOfBit (b.getLsbD k)) : packedByte m src idx 8 = b := by
  refine BitVec.eq_of_getLsbD_eq fun k hk => ?_
  rw [getLsbD_packedByte _ _ _ _ hk, h k hk, bitOfEntry_entryOfBit]
  simp [hk]

theorem zext32_injective {a b : Byte} (h : zext32 a = zext32 b) : a = b := by
  simpa [zext32] using congrArg (BitVec.setWidth 8) h

/-! ### BPK.UNPACK_BYTE (R101) -/

section
variable {dest idx : Word32} {value : Byte} {s t : State}

theorem mem_unpackByte_writeSet_iff_span {a : Nat} :
    a ∈ (planBpkUnpackByte dest idx value).writeSet ↔
      dest.toNat + idx.toNat ≤ a ∧ a < dest.toNat + idx.toNat + 8 :=
  mem_unpackByte_writeSet.trans exists_entryAddr_iff

/-- BPK.UNPACK_BYTE keeps its contract exactly when its eight entries are admitted. -/
theorem unpackByte_contractFault_eq_none :
    (planBpkUnpackByte dest idx value).contractFault s = none ↔ ∀ k < 8, s.writable (entryAddr dest idx k) = true := by
  rw [Plan.contractFault_eq_none, unpackByte_writeSet]
  simp [planBpkUnpackByte]

theorem unpackByte_read_entry {k : Nat} (hm : s.mem.wf = true)
    (hn : (planBpkUnpackByte dest idx value).contractFault s = none) (hk : k < 8) :
    (complete (planBpkUnpackByte dest idx value) s).mem.read (entryAddr dest idx k) = entryOfBit (value.getLsbD k) :=
  complete_read_written hm hn (planOf_writeSet_nodup (.bpkUnpackByte dest idx value) s)
    (List.mem_map.2 ⟨k, List.mem_range.2 hk, rfl⟩)

/-- BPK.UNPACK_BYTE leaves every byte outside its eight entries, whichever way it ends (R106). -/
theorem unpackByte_read_outside {a : Nat} (h : exec (.bpkUnpackByte dest idx value) s = .next t)
    (ha : a < dest.toNat + idx.toNat ∨ dest.toNat + idx.toNat + 8 ≤ a) : t.mem.read a = s.mem.read a := by
  obtain rfl := eq_complete_of_exec h
  refine complete_frame_mem fun hmem => ?_
  obtain ⟨hlow, hhigh⟩ := mem_unpackByte_writeSet_iff_span.1 hmem
  omega

end

/-! ### BPK.UNPACK_BYTES (R102) -/

section
variable {dest idx nbBits src : Word32} {s t : State}

theorem mem_unpackBytes_writeSet_iff_span {a : Nat} :
    a ∈ (planBpkUnpackBytes dest idx nbBits src s).writeSet ↔
      dest.toNat + idx.toNat ≤ a ∧ a < dest.toNat + idx.toNat + nbBits.toNat :=
  mem_unpackBytes_writeSet.trans exists_entryAddr_iff

/-- BPK.UNPACK_BYTES keeps its contract exactly when its packed bytes and entries are admitted and disjoint. -/
theorem unpackBytes_contractFault_eq_none :
    (planBpkUnpackBytes dest idx nbBits src s).contractFault s = none ↔
      (∀ j < ceilDiv nbBits.toNat 8, s.readable (packedAddr src j) = true) ∧
      (∀ i < nbBits.toNat, s.writable (entryAddr dest idx i) = true) ∧
      ∀ j < ceilDiv nbBits.toNat 8, ∀ i < nbBits.toNat, packedAddr src j ≠ entryAddr dest idx i := by
  rw [Plan.contractFault_eq_none, unpackBytes_writeSet]
  simp only [planBpkUnpackBytes, packedAddrs, List.forall_mem_map, List.mem_range]
  simp only [mem_map_range, not_exists, not_and, ne_eq]

theorem unpackBytes_read_entry {i : Nat} (hm : s.mem.wf = true)
    (hn : (planBpkUnpackBytes dest idx nbBits src s).contractFault s = none) (hi : i < nbBits.toNat) :
    (complete (planBpkUnpackBytes dest idx nbBits src s) s).mem.read (entryAddr dest idx i) =
      entryOfBit ((s.mem.read (packedAddr src (i / 8))).getLsbD (i % 8)) :=
  complete_read_written hm hn (planOf_writeSet_nodup (.bpkUnpackBytes dest idx nbBits src) s)
    (List.mem_map.2 ⟨i, List.mem_range.2 hi, rfl⟩)

/-- BPK.UNPACK_BYTES leaves every byte outside its entries, whichever way it ends (R106). -/
theorem unpackBytes_read_outside {a : Nat} (h : exec (.bpkUnpackBytes dest idx nbBits src) s = .next t)
    (ha : a < dest.toNat + idx.toNat ∨ dest.toNat + idx.toNat + nbBits.toNat ≤ a) :
    t.mem.read a = s.mem.read a := by
  obtain rfl := eq_complete_of_exec h
  refine complete_frame_mem fun hmem => ?_
  obtain ⟨hlow, hhigh⟩ := mem_unpackBytes_writeSet_iff_span.1 hmem
  omega

/-- A count of at most eight reads the first packed byte alone. -/
theorem packedAddr_of_le_eight {j n : Nat} (h8 : n ≤ 8) (hj : j < ceilDiv n 8) : packedAddr src j = src.toNat := by
  unfold ceilDiv at hj
  unfold packedAddr
  omega

/-- With a count of at most eight, one packed byte beside the entries keeps the contract of BPK.UNPACK_BYTES. -/
theorem unpackBytes_contractFault_of_le_eight (h8 : nbBits.toNat ≤ 8) (hr : s.readable src.toNat = true)
    (hentries : ∀ k < nbBits.toNat, s.writable (entryAddr dest idx k) = true ∧ entryAddr dest idx k ≠ src.toNat) :
    (planBpkUnpackBytes dest idx nbBits src s).contractFault s = none := by
  refine unpackBytes_contractFault_eq_none.2 ⟨fun j hj => ?_, fun i hi => (hentries i hi).1, fun j hj i hi => ?_⟩
  · rwa [packedAddr_of_le_eight h8 hj]
  · rw [packedAddr_of_le_eight h8 hj]
    exact (hentries i hi).2.symm

end

/-- Eight bits unpacked from a packed byte are the entries of its value (R111). -/
theorem unpackBytesCells_eight (m : Memory) (dest idx src : Word32) :
    unpackBytesCells m dest idx 8 src = unpackByteCells dest idx (m.read src.toNat) := by
  refine List.map_congr_left fun i hi => ?_
  have hi8 : i < 8 := List.mem_range.1 hi
  rw [Nat.div_eq_of_lt hi8, Nat.mod_eq_of_lt hi8, packedAddr, Nat.add_zero]

/-! ### BPK.PACK_BYTE (R103) -/

/-- BPK.PACK_BYTE answers its packed byte and changes nothing else when the entries it reads are admitted. -/
theorem packByte_answers {src idx nbBits : Word32} {s : State}
    (hr : ∀ k < min nbBits.toNat 8, s.readable (entryAddr src idx k) = true) :
    AnswersOnly (.bpkPackByte src idx nbBits) s ⟨packStatus nbBits, zext32 (packedByte s.mem src idx nbBits), 0⟩ := by
  refine answersOnly_of_reads_admitted rfl fun a ha => ?_
  obtain ⟨k, hk, rfl⟩ := mem_packAddrs.1 ha
  exact hr k hk

/-- BPK.PACK_BYTE stores nothing, whichever way it ends (R106). -/
theorem packByte_mem {src idx nbBits : Word32} {s t : State} (h : exec (.bpkPackByte src idx nbBits) s = .next t) :
    t.mem = s.mem := by
  obtain rfl := eq_complete_of_exec h
  obtain ⟨-, e⟩ | ⟨f, -, e⟩ := complete_cases (planOf (.bpkPackByte src idx nbBits) s) s
  · rw [e]
    rfl
  · rw [e]
    rfl

/-! ### The obligations -/

/-- Settles O19: with the eight entries admitted each is written and the rest kept; otherwise the first one not admitted
is the contract fault. -/
theorem unpackByteWritesEightEntries : Obligations.UnpackByteWritesEightEntries := by
  unfold Obligations.UnpackByteWritesEightEntries
  refine ⟨fun c h => decode_bpkUnpackByte h, fun s dest idx value hm => ⟨fun hw => ?_, fun k hk => ?_⟩⟩
  · have hn : (planBpkUnpackByte dest idx value).contractFault s = none := unpackByte_contractFault_eq_none.2 hw
    have hanswer := answersInto_complete (i := .bpkUnpackByte dest idx value) hn
    exact ⟨_, hanswer, fun k hk => unpackByte_read_entry hm hn hk, fun a ha => unpackByte_read_outside hanswer.1 ha⟩
  · exact raises_of_contractFault (contractFault_of_writes nofun (unpackByte_writeSet dest idx value) hk)

/-- Settles O20: with the contract kept each entry is written and the rest kept; otherwise the packed bytes, then the
entries, then the lowest common byte decide the contract fault. -/
theorem unpackBytesWritesEveryEntry : Obligations.UnpackBytesWritesEveryEntry := by
  unfold Obligations.UnpackBytesWritesEveryEntry
  refine ⟨fun c h => decode_bpkUnpackBytes h, fun s dest idx nbBits src hm => ?_⟩
  have hreads (hr : ∀ j < (nbBits.toNat + 7) / 8, s.readable (src.toNat + j) = true) :
      ∀ a ∈ packedAddrs src nbBits, s.readable a = true := by
    intro a ha
    obtain ⟨j, hj, rfl⟩ := mem_packedAddrs.1 ha
    exact hr j hj
  refine ⟨fun hr hw hd => ?_, fun k hk => ?_, fun k hr hk => ?_, fun a hr hw hpacked hentry hlow => ?_⟩
  · have hn : (planBpkUnpackBytes dest idx nbBits src s).contractFault s = none :=
      unpackBytes_contractFault_eq_none.2 ⟨hr, hw, hd⟩
    have hanswer := answersInto_complete (i := .bpkUnpackBytes dest idx nbBits src) hn
    exact ⟨_, hanswer, fun i hi => unpackBytes_read_entry hm hn hi,
      fun a ha => unpackBytes_read_outside hanswer.1 ha⟩
  · exact raises_of_contractFault
      (contractFault_of_reads (p := planBpkUnpackBytes dest idx nbBits src s) rfl hk)
  · exact raises_of_contractFault
      (contractFault_of_writes (hreads hr) (unpackBytes_writeSet dest idx nbBits src s) hk)
  · refine raises_of_contractFault (Plan.contractFault_eq_overlap.2
      ⟨hreads hr, fun b hb => ?_, lowestCommon_eq_some_iff_none_below.2
        ⟨mem_packedAddrs.2 hpacked, mem_unpackBytes_writeSet.2 hentry, fun b hb hboth => ?_⟩⟩)
    · obtain ⟨i, hi, rfl⟩ := mem_unpackBytes_writeSet.1 hb
      exact hw i hi
    · exact hlow b hb ⟨mem_packedAddrs.1 hboth.1, mem_unpackBytes_writeSet.1 hboth.2⟩

/-- Settles O21: the byte is the packed byte, lane by lane. -/
theorem packByteRespondsWithThePackedByte : Obligations.PackByteRespondsWithThePackedByte := by
  unfold Obligations.PackByteRespondsWithThePackedByte
  refine ⟨fun c h => decode_bpkPackByte h, fun s src idx nbBits => ⟨fun hr => ?_, fun k hk => ?_⟩⟩
  · exact ⟨packedByte s.mem src idx nbBits, fun k hk => getLsbD_packedByte s.mem src idx nbBits hk,
      packByte_answers hr⟩
  · exact raises_of_contractFault (contractFault_of_reads (p := planBpkPackByte src idx nbBits s) rfl hk)

/-- Settles O22: with a count of zero both sets are empty and no lane is set. -/
theorem zeroCountDoesNothing : Obligations.ZeroCountDoesNothing := by
  unfold Obligations.ZeroCountDoesNothing
  intro s dest idx src
  exact ⟨answersOnly_of_reads_admitted rfl nofun, packByte_answers nofun⟩

/-- Settles O23: the write sets are spans, and completing a plan leaves every byte outside its write set. -/
theorem bpkWritesOnlyItsWriteSet : Obligations.BpkWritesOnlyItsWriteSet := by
  unfold Obligations.BpkWritesOnlyItsWriteSet
  intro s t dest idx nbBits src value a
  exact ⟨mem_unpackByte_writeSet_iff_span, mem_unpackBytes_writeSet_iff_span, unpackByte_read_outside,
    unpackBytes_read_outside, packByte_mem⟩

/-- Settles O24: entry `8 * j + k` holds bit `k` of packed byte `j`, and the entries end inside the space, so the index
of group `j` fits its word. -/
theorem unpackThenPackReturnsTheBytes : Obligations.UnpackThenPackReturnsTheBytes := by
  unfold Obligations.UnpackThenPackReturnsTheBytes
  intro s t dest idx nbBits src len hm hnb hr hentries hd hexec j hj
  have hceil : ceilDiv nbBits.toNat 8 = len := by
    unfold ceilDiv
    omega
  have hn : (planBpkUnpackBytes dest idx nbBits src s).contractFault s = none := by
    rw [unpackBytes_contractFault_eq_none, hceil, hnb]
    exact ⟨hr, fun i hi => (hentries i hi).1, hd⟩
  obtain rfl := eq_complete_of_exec hexec
  obtain ⟨-, hreadOK, -⟩ := complete_frame (planBpkUnpackBytes dest idx nbBits src s) s
  have hidx : idx.toNat + 8 * j < 2 ^ 32 := by
    have htop : dest.toNat + idx.toNat + 8 * j < 2 ^ 32 := State.lt_of_readable (hentries (8 * j) (by omega)).2
    omega
  have hbyte : packedByte (complete (planBpkUnpackBytes dest idx nbBits src s) s).mem dest
      (BitVec.ofNat 32 (idx.toNat + 8 * j)) 8 = s.mem.read (src.toNat + j) := by
    refine packedByte_eq_of_entries fun k hk => ?_
    have hdiv : (8 * j + k) / 8 = j := by omega
    have hmod : (8 * j + k) % 8 = k := by omega
    rw [entryAddr_add_index hidx, unpackBytes_read_entry hm hn (by omega), hdiv, hmod, packedAddr_eq]
  rw [← hbyte]
  refine packByte_answers fun k hk => ?_
  have hk8 : k < 8 := lt_of_lt_of_le hk (Nat.min_le_right _ _)
  rw [entryAddr_add_index hidx, State.readable, planOf, hreadOK]
  exact (hentries (8 * j + k) (by omega)).2

/-- Settles O25: the packed byte has bit `k` set exactly when entry `k` is nonzero, and unpacking it writes that bit. -/
theorem packThenUnpackReturnsTheEntries : Obligations.PackThenUnpackReturnsTheEntries := by
  unfold Obligations.PackThenUnpackReturnsTheEntries
  intro s t u src idx nbBits dest idx' src' byte hnb hm _ hexec hresponse hread hreadable hentries
  have hbyte : byte = packedByte s.mem src idx nbBits :=
    zext32_injective (congrArg Response.res0 (response_eq_of_exec hexec hresponse))
  have hn : (planBpkUnpackBytes dest idx' nbBits src' u).contractFault u = none :=
    unpackBytes_contractFault_of_le_eight hnb hreadable hentries
  refine ⟨_, answersInto_complete (i := .bpkUnpackBytes dest idx' nbBits src') hn, fun k hk => ?_⟩
  have hk8 : k < 8 := lt_of_lt_of_le hk hnb
  have hentry := unpackBytes_read_entry hm hn hk
  rw [packedAddr_of_le_eight hnb (div_lt_ceilDiv hk), hread, hbyte, Nat.mod_eq_of_lt hk8, getLsbD_packedByte _ _ _ _ hk8,
    decide_eq_true hk, Bool.true_and, entryOfBit_bitOfEntry] at hentry
  exact hentry

/-- Settles O26: both plans keep their contract, and they write the same cells and answer the same response. -/
theorem unpackByteIsUnpackBytesOfEight : Obligations.UnpackByteIsUnpackBytesOfEight := by
  unfold Obligations.UnpackByteIsUnpackBytesOfEight
  rintro s dest idx src _ rfl hreadable hentries
  have hbyte : (planBpkUnpackByte dest idx (s.mem.read src.toNat)).contractFault s = none :=
    unpackByte_contractFault_eq_none.2 fun k hk => (hentries k hk).1
  have hbytes : (planBpkUnpackBytes dest idx 8 src s).contractFault s = none :=
    unpackBytes_contractFault_of_le_eight le_rfl hreadable hentries
  have hcells : (planBpkUnpackBytes dest idx 8 src s).writes =
      (planBpkUnpackByte dest idx (s.mem.read src.toNat)).writes := unpackBytesCells_eight s.mem dest idx src
  refine ⟨_, exec_eq_complete _ _, ?_, complete_port_eq_ready.2 hbyte⟩
  rw [exec_eq_complete, planOf, planOf, complete_of_none hbytes, complete_of_none hbyte, hcells]
  rfl

end Sys2Proof.Machine
end

section
/-! PROOFS. The float codec (43_fwr.md R124 to R135): every FWR command answers without touching memory, and the four
orderings are ABCD followed by a swap that undoes itself, which is why each decodes what it encodes. -/

namespace Sys2Proof.Machine

open Sys2Proof.Claims

/-! ### How an FWR command ends (R135) -/

section
variable {i : Instr} {c : Command} {s : State} {r0 r1 : Word32}

/-- A command whose plan is an answer delivers it in every state, and changes nothing else (R13, R71). -/
theorem answersOnly_of_planAnswer (h : planOf i s = planAnswer r0 r1) : AnswersOnly i s (okResponse r0 r1) := by
  rw [AnswersOnly, exec_eq_complete, h, planAnswer, complete_no_access]
  rfl

/-- An answer's plan has neither set, and its STATUS is OK. -/
theorem noAccess_of_planAnswer (h : planOf i s = planAnswer r0 r1) :
    (planOf i s).reads = [] ∧ (planOf i s).writes = [] ∧ ∃ r, r.status = 0x00 ∧ AnswersOnly i s r :=
  ⟨by rw [h, planAnswer], by rw [h, planAnswer], _, rfl, answersOnly_of_planAnswer h⟩

/-- A message that decodes to such a command answers it through the port. -/
theorem runCommand_of_planAnswer (hd : decode c = some i) (h : planOf i s = planAnswer r0 r1) :
    runCommand c s = .next (s.deliver (okResponse r0 r1)) :=
  (runCommand_of_decode hd).trans (answersOnly_of_planAnswer h)

end

/-! ### The swaps (R134) -/

theorem swapB_append (a b c d : Byte) :
    swapB ((a ++ b : BitVec (8 + 8)), (c ++ d : BitVec (8 + 8))) =
      ((b ++ a : BitVec (8 + 8)), (d ++ c : BitVec (8 + 8))) := by
  change ((loByte _ ++ hiByte _ : BitVec (8 + 8)), (loByte _ ++ hiByte _ : BitVec (8 + 8))) = _
  simp only [hiByte_append, loByte_append]

theorem swapB_involutive : Function.Involutive swapB := by
  rintro ⟨w0, w1⟩
  rw [← append_hiByte_loByte w0, ← append_hiByte_loByte w1, swapB_append, swapB_append]

theorem swapW_involutive : Function.Involutive swapW := fun _ => rfl

theorem swapB_swapW (w : Word16 × Word16) : swapB (swapW w) = swapW (swapB w) := rfl

theorem swapW_comp_swapB_involutive : Function.Involutive (swapW ∘ swapB) := fun w =>
  swapB_involutive w

/-! ### Each ordering is ABCD followed by a swap (R134) -/

theorem encAbcd_eq_bytes (v : Word32) : encAbcd v = (byteK 3 v ++ byteK 2 v, byteK 1 v ++ byteK 0 v) :=
  Prod.ext (upperHalf_eq v) (lowerHalf_eq v)

theorem encBadc_eq_swapB (v : Word32) : encBadc v = swapB (encAbcd v) := by
  rw [encAbcd_eq_bytes, swapB_append]
  rfl

theorem encCdab_eq_swapW (v : Word32) : encCdab v = swapW (encAbcd v) := rfl

theorem encDcba_eq_swapW_swapB (v : Word32) : encDcba v = swapW (swapB (encAbcd v)) := by
  rw [← encBadc_eq_swapB]
  rfl

theorem decBadc_eq_swapB (w : Word16 × Word16) : decBadc w.1 w.2 = decAbcd (swapB w).1 (swapB w).2 :=
  append_four _ _ _ _

theorem decCdab_eq_swapW (w : Word16 × Word16) : decCdab w.1 w.2 = decAbcd (swapW w).1 (swapW w).2 := rfl

theorem decDcba_eq_swapW_swapB (w : Word16 × Word16) :
    decDcba w.1 w.2 = decAbcd (swapW (swapB w)).1 (swapW (swapB w)).2 :=
  append_four _ _ _ _

/-! ### Decoding and encoding under one ordering are inverses (R133, R134) -/

/-- A decode function and an encode function that are inverses on both sides. -/
structure IsCodec (dec : Word16 → Word16 → Word32) (enc : Word32 → Word16 × Word16) : Prop where
  dec_enc : ∀ v, dec (enc v).1 (enc v).2 = v
  enc_dec : ∀ w0 w1, enc (dec w0 w1) = (w0, w1)

/-- Reordering the words of a codec by a permutation that undoes itself gives a codec. -/
theorem IsCodec.reorder {dec dec' : Word16 → Word16 → Word32} {enc enc' : Word32 → Word16 × Word16}
    {σ : Word16 × Word16 → Word16 × Word16} (h : IsCodec dec enc) (hσ : Function.Involutive σ)
    (hdec : ∀ w : Word16 × Word16, dec' w.1 w.2 = dec (σ w).1 (σ w).2) (henc : ∀ v, enc' v = σ (enc v)) :
    IsCodec dec' enc' where
  dec_enc v := by rw [hdec, henc, hσ, h.dec_enc]
  enc_dec w0 w1 := by rw [henc, hdec (w0, w1), h.enc_dec, Prod.mk.eta, hσ]

theorem isCodec_abcd : IsCodec decAbcd encAbcd where
  dec_enc := append_halves
  enc_dec w0 w1 := Prod.ext (halves_append w0 w1).1 (halves_append w0 w1).2

theorem isCodec_badc : IsCodec decBadc encBadc :=
  isCodec_abcd.reorder swapB_involutive decBadc_eq_swapB encBadc_eq_swapB

theorem isCodec_cdab : IsCodec decCdab encCdab :=
  isCodec_abcd.reorder swapW_involutive decCdab_eq_swapW encCdab_eq_swapW

theorem isCodec_dcba : IsCodec decDcba encDcba :=
  isCodec_abcd.reorder swapW_comp_swapB_involutive decDcba_eq_swapW_swapB encDcba_eq_swapW_swapB

/-- Settles O13: the swap laws give the inverses from ABCD's, and the listed images, all different, tell the four
functions apart. -/
theorem fwrOrderingsAreTheSwaps : Obligations.FwrOrderingsAreTheSwaps := by
  unfold Obligations.FwrOrderingsAreTheSwaps
  refine ⟨fun v => ⟨encBadc_eq_swapB v, encCdab_eq_swapW v, encDcba_eq_swapW_swapB v, encDcba_eq_swapW_swapB v⟩,
    fun w => ⟨swapB_involutive w, swapW_involutive w, swapB_swapW w⟩,
    fun v => ⟨isCodec_abcd.dec_enc v, isCodec_dcba.dec_enc v, isCodec_badc.dec_enc v, isCodec_cdab.dec_enc v⟩,
    fun w0 w1 => ⟨isCodec_abcd.enc_dec w0 w1, isCodec_dcba.enc_dec w0 w1, isCodec_badc.enc_dec w0 w1,
      isCodec_cdab.enc_dec w0 w1⟩, by decide, ?_⟩
  have himages : ([encAbcd, encDcba, encBadc, encCdab].map fun enc => enc 0x11223344).Pairwise (· ≠ ·) := by decide
  exact himages.of_map _ fun enc enc' hne he => hne (congrFun he _)

/-! ### Round trips through the port (R133) -/

/-- What R133 asks of one ordering, given by its two command words. -/
def RoundTripsThroughThePort (decWord encWord : Word32) : Prop :=
  ∀ (s : State) (x y : Word32),
    (∃ t w0 w1, runCommand ⟨encWord, x, y, 0, 0⟩ s = .next t ∧ t.response = some ⟨0x00, w0, w1⟩ ∧
      ∀ s' : State, ∃ t', runCommand ⟨decWord, w0, w1, 0, 0⟩ s' = .next t' ∧ t'.response = some ⟨0x00, x, 0⟩) ∧
    (∃ t v, runCommand ⟨decWord, x, y, 0, 0⟩ s = .next t ∧ t.response = some ⟨0x00, v, 0⟩ ∧
      ∀ s' : State, ∃ t', runCommand ⟨encWord, v, 0, 0, 0⟩ s' = .next t' ∧
        t'.response = some ⟨0x00, zext32 (word16Of x), zext32 (word16Of y)⟩)

/-- Two command words that answer with a codec round trip: the response carries each word zero-extended, and the second
message's operand form takes its lower half back. -/
theorem IsCodec.roundTripsThroughThePort {decWord encWord : Word32} {dec : Word16 → Word16 → Word32}
    {enc : Word32 → Word16 × Word16} (h : IsCodec dec enc)
    (hdec : ∀ x y s, runCommand ⟨decWord, x, y, 0, 0⟩ s =
      .next (s.deliver (okResponse (dec (word16Of x) (word16Of y)) 0)))
    (henc : ∀ x y s, runCommand ⟨encWord, x, y, 0, 0⟩ s =
      .next (s.deliver (okResponse (zext32 (enc x).1) (zext32 (enc x).2)))) :
    RoundTripsThroughThePort decWord encWord := by
  intro s x y
  refine ⟨⟨_, _, _, henc x y s, rfl, fun s' => ⟨_, hdec _ _ s', ?_⟩⟩, ⟨_, _, hdec x y s, rfl, fun s' =>
    ⟨_, henc _ _ s', ?_⟩⟩⟩
  · rw [word16Of_zext32, word16Of_zext32, h.dec_enc]
    rfl
  · rw [h.enc_dec]
    rfl

/-- Settles O12: under every ordering the two commands answer with a codec's two functions. -/
theorem fwrRoundTripsThroughThePort : Obligations.FwrRoundTripsThroughThePort := by
  unfold Obligations.FwrRoundTripsThroughThePort
  have habcd : RoundTripsThroughThePort 0x40 0x41 := isCodec_abcd.roundTripsThroughThePort
    (fun _ _ _ => runCommand_of_planAnswer (decode_fwrDecAbcd rfl) rfl)
    (fun _ _ _ => runCommand_of_planAnswer (decode_fwrEncAbcd rfl) rfl)
  have hdcba : RoundTripsThroughThePort 0x50 0x51 := isCodec_dcba.roundTripsThroughThePort
    (fun _ _ _ => runCommand_of_planAnswer (decode_fwrDecDcba rfl) rfl)
    (fun _ _ _ => runCommand_of_planAnswer (decode_fwrEncDcba rfl) rfl)
  have hbadc : RoundTripsThroughThePort 0x60 0x61 := isCodec_badc.roundTripsThroughThePort
    (fun _ _ _ => runCommand_of_planAnswer (decode_fwrDecBadc rfl) rfl)
    (fun _ _ _ => runCommand_of_planAnswer (decode_fwrEncBadc rfl) rfl)
  have hcdab : RoundTripsThroughThePort 0x70 0x71 := isCodec_cdab.roundTripsThroughThePort
    (fun _ _ _ => runCommand_of_planAnswer (decode_fwrDecCdab rfl) rfl)
    (fun _ _ _ => runCommand_of_planAnswer (decode_fwrEncCdab rfl) rfl)
  exact List.forall_mem_cons.2 ⟨habcd, List.forall_mem_cons.2 ⟨hdcba, List.forall_mem_cons.2 ⟨hbadc,
    List.forall_mem_singleton.2 hcdab⟩⟩⟩

/-! ### Each command's answer and encoding (R124 to R131) -/

/-- Settles O9: each plan answers the arrangement its rule gives, and the opcode map gives the four rows. -/
theorem fwrDecodeRespondsWithTheFloat : Obligations.FwrDecodeRespondsWithTheFloat := by
  unfold Obligations.FwrDecodeRespondsWithTheFloat
  exact ⟨fun s w0 w1 => ⟨answersOnly_of_planAnswer rfl, answersOnly_of_planAnswer rfl, answersOnly_of_planAnswer rfl,
    answersOnly_of_planAnswer rfl⟩,
    fun c => ⟨decode_fwrDecAbcd, decode_fwrDecDcba, decode_fwrDecBadc, decode_fwrDecCdab⟩⟩

/-- Settles O10: each plan answers the arrangement its rule gives, and the opcode map gives the four rows. -/
theorem fwrEncodeRespondsWithTheWords : Obligations.FwrEncodeRespondsWithTheWords := by
  unfold Obligations.FwrEncodeRespondsWithTheWords
  exact ⟨fun s v => ⟨answersOnly_of_planAnswer rfl, answersOnly_of_planAnswer rfl, answersOnly_of_planAnswer rfl,
    answersOnly_of_planAnswer rfl⟩,
    fun c => ⟨decode_fwrEncAbcd, decode_fwrEncDcba, decode_fwrEncBadc, decode_fwrEncCdab⟩⟩

/-- Settles O11: the plan of each of the eight is an answer. -/
theorem fwrTouchesNoMemoryAndAlwaysAnswersOk : Obligations.FwrTouchesNoMemoryAndAlwaysAnswersOk := by
  unfold Obligations.FwrTouchesNoMemoryAndAlwaysAnswersOk
  intro s w0 w1 v
  simp only [List.forall_mem_cons]
  exact ⟨noAccess_of_planAnswer rfl, noAccess_of_planAnswer rfl, noAccess_of_planAnswer rfl, noAccess_of_planAnswer rfl,
    noAccess_of_planAnswer rfl, noAccess_of_planAnswer rfl, noAccess_of_planAnswer rfl, noAccess_of_planAnswer rfl,
    nofun⟩

end Sys2Proof.Machine
end

section
/-! PROOFS. Errors and contract faults (60_exceptions.md R151 to R155): which one decides, what each leaves, and how long it
is kept. -/

namespace Sys2Proof.Machine

open Sys2Proof.Claims

/-! ### How each command ends (R151, R155) -/

/-- With the packed bytes admitted BPK.UNPACK_BYTES keeps the first half of its contract. -/
theorem unpackBytes_reads_admitted {dest idx nbBits src : Word32} {s : State}
    (hr : ∀ j < (nbBits.toNat + 7) / 8, s.readable (src.toNat + j) = true) :
    ∀ a ∈ (planOf (.bpkUnpackBytes dest idx nbBits src) s).reads, s.readable a = true :=
  List.forall_mem_map.2 fun j hj => hr j (List.mem_range.1 hj)

/-- With the entries admitted BPK.UNPACK_BYTES keeps the second half of its contract. -/
theorem unpackBytes_writes_admitted {dest idx nbBits src : Word32} {s : State}
    (hw : ∀ i < nbBits.toNat, s.writable (dest.toNat + idx.toNat + i) = true) :
    ∀ a ∈ (planOf (.bpkUnpackBytes dest idx nbBits src) s).writeSet, s.writable a = true := by
  intro a ha
  obtain ⟨i, hi, rfl⟩ := mem_unpackBytes_writeSet.1 ha
  exact hw i hi

/-- Settles O28, clause by clause in the order of R155: reads before writes, both before the overlap, and all before
ERR_NB_BITS. -/
theorem errorPrecedence : Obligations.ErrorPrecedence := by
  unfold Obligations.ErrorPrecedence
  intro s dest idx nbBits src payload value fc
  refine ⟨fun c hd => ?_, fun k hcls hk => ?_, fun k hk => ?_, fun k hk => ?_, fun k hr hk => ?_,
    fun a hr hw hpacked hentry hlow => ?_, fun k hk => ?_, fun h8 hr => ?_⟩
  · exact ⟨_, runCommand_answers_of_illegal hd, rfl, rfl, rfl⟩
  · exact raises_of_contractFault (contractFault_of_reads (quantityAddrs_eq_map_range payload hcls) hk)
  · exact raises_of_contractFault (contractFault_of_writes nofun (unpackByte_writeSet dest idx value) hk)
  · exact raises_of_contractFault (contractFault_of_reads (p := planBpkUnpackBytes dest idx nbBits src s) rfl hk)
  · exact raises_of_contractFault
      (contractFault_of_writes (unpackBytes_reads_admitted hr) (unpackBytes_writeSet dest idx nbBits src s) hk)
  · refine (overlapIsReportedAtTheLowestCommonByte s _).1 a (unpackBytes_reads_admitted hr)
      (unpackBytes_writes_admitted hw) (mem_packedAddrs.2 hpacked) (mem_unpackBytes_writeSet.2 hentry) ?_
    exact fun b hb hboth => hlow b hb ⟨mem_packedAddrs.1 hboth.1, mem_unpackBytes_writeSet.1 hboth.2⟩
  · exact raises_of_contractFault (contractFault_of_reads (p := planBpkPackByte src idx nbBits s) rfl hk)
  · have hanswer := packByte_answers (src := src) (idx := idx) (nbBits := nbBits) (s := s)
      fun k hk => hr k (lt_of_lt_of_le hk (Nat.min_le_right _ 8))
    exact ⟨_, _, hanswer, rfl, if_pos h8, rfl⟩

/-- A command that touches no memory keeps its contract. -/
theorem Plan.contractFault_of_no_access {p : Plan} (s : State) (hr : p.reads = []) (hw : p.writes = []) :
    p.contractFault s = none := by
  simp [Plan.contractFault_eq_none, Plan.writeSet, hr, hw]

/-- The STATUS in a command's plan is the one R151 gives it. -/
theorem planOf_status (i : Instr) (s : State) : (planOf i s).response.status = statusOf i := by
  cases i with
  | rlrLookup fc payload => exact lengthResponse_status _
  | _ => rfl

/-- Settles O33, by whether the command keeps its contract: it answers its plan's STATUS, or raises a contract fault, which
a command without access cannot. -/
theorem everyCommandEndsWithItsStatus : Obligations.EveryCommandEndsWithItsStatus := by
  unfold Obligations.EveryCommandEndsWithItsStatus
  refine ⟨fun s i => ⟨_, exec_eq_complete i s, ?_⟩, fun s c hd => ⟨_, runCommand_answers_of_illegal hd, rfl, rfl⟩⟩
  obtain ⟨-, e⟩ | ⟨f, hf, e⟩ := complete_cases (planOf i s) s
  · rw [e]
    exact .inl ⟨(planOf i s).response, rfl, rfl, rfl, rfl, planOf_status i s⟩
  · rw [e]
    refine .inr ⟨f, rfl, rfl, rfl, rfl, fun w0 w1 v hi => ?_⟩
    obtain ⟨hr, hw, -⟩ := fwrTouchesNoMemoryAndAlwaysAnswersOk s w0 w1 v i hi
    simp [Plan.contractFault_of_no_access s hr hw] at hf

/-! ### What a contract fault leaves, and that it is kept (R152) -/

/-- After a contract fault byte `k` of a write set without repeats holds draw `draws + k`. -/
theorem State.raise_read {s : State} {ws : List Nat} {k a : Nat} (f : ContractFault) (hm : s.mem.wf = true)
    (hd : ws.Nodup) (hk : ws[k]? = some a) (ha : a < addrSpace) :
    (s.raise f ws).mem.read a = Config.freeByte (s.draws + k) :=
  Memory.read_writeAll_mem hm (fun _ hc => (mem_freeCells hc).2) (nodup_freeCells hd) (getElem_freeCells hk ha)

/-- Settles O31: the command left its free cells, one for each address of its write set. -/
theorem contractFaultLeavesTheWriteSetUnconstrained : Obligations.ContractFaultLeavesTheWriteSetUnconstrained := by
  unfold Obligations.ContractFaultLeavesTheWriteSetUnconstrained
  intro s t i f hm hexec hlost
  obtain rfl := eq_complete_of_exec hexec
  have hraise : complete (planOf i s) s = s.raise f (planOf i s).writeSet :=
    complete_of_some (contractFault_of_complete_lost hlost)
  refine ⟨fun k a hk ha => ?_, fun a ha => complete_frame_mem ha, ?_⟩
  · rw [hraise]
    exact State.raise_read f hm (planOf_writeSet_nodup i s) hk ha
  · rw [hraise, State.raise_draws]

/-- A command that ends takes no contract fault off the record. -/
theorem complete_contractFaults_prefix (p : Plan) (s : State) :
    s.contractFaults <+: (complete p s).contractFaults := by
  obtain ⟨-, e⟩ | ⟨f, -, e⟩ := complete_cases p s
  · rw [e]
    exact List.prefix_rfl
  · rw [e]
    exact List.prefix_append _ _

/-- Nor does a command that reset abandons. -/
theorem abandon_contractFaults_prefix (p : Plan) (s : State) :
    s.contractFaults <+: (abandon p s).contractFaults := by
  unfold abandon
  split
  · exact List.prefix_append _ _
  · exact List.prefix_rfl

/-- Reset keeps every contract fault on record (log entry 11). -/
theorem State.takeReset_contractFaults_prefix (s : State) : s.contractFaults <+: s.takeReset.contractFaults := by
  unfold State.takeReset
  split
  · exact List.prefix_rfl
  · exact abandon_contractFaults_prefix _ s
  · exact List.prefix_rfl

/-- A run with a contract fault on record has not ended successfully (R152, R180). -/
theorem State.succeeded_of_contractFaults {s : State} (h : s.contractFaults ≠ []) : s.succeeded = false := by
  simp [State.succeeded, h]

/-- With no other host move in its way a lost command stops the step (log entry 4). -/
theorem step_of_lost {s : State} {f : ContractFault} (hp : s.port = .lost f) (h : NothingInTheWay s) :
    step s = .fault (.contract f) := by
  obtain h | ⟨d, q, h⟩ | ⟨q, h⟩ := h
  · simp only [step, State.stepOnce, h, State.advance, hp]
  · simp only [step, State.stepOnce, h, State.hostPresent, State.advance, hp]
  · simp only [step, State.stepOnce, h, State.hostAwait, State.advance, hp]

/-- Settles O32, by the cases of the step: only a command that ends and a reset touch the record, and both only add to
it. -/
theorem contractFaultsAreKept : Obligations.ContractFaultsAreKept := by
  unfold Obligations.ContractFaultsAreKept
  refine ⟨fun s t h => ?_, fun s => State.succeeded_of_contractFaults, fun s f => step_of_lost⟩
  obtain ⟨c, -, rfl⟩ | ⟨-, rfl, -⟩ | ⟨c, q, -, -, rfl⟩ | ⟨q, -, -, rfl⟩ | ⟨q, r, -, -, rfl⟩ | ⟨a, v, q, -, rfl, -⟩ |
    ⟨a, q, -, rfl⟩ | ⟨q, -, rfl⟩ := step_cases h
  · exact complete_contractFaults_prefix _ s
  · exact List.prefix_rfl
  · exact List.prefix_rfl
  · exact List.prefix_rfl
  · exact List.prefix_rfl
  · exact List.prefix_rfl
  · exact List.prefix_rfl
  · exact State.takeReset_contractFaults_prefix { s with host := q }

/-! ### Illegal commands (R153) -/

/-- A response that is a fault of the host program is one more of them. -/
theorem State.deliver_programFaults {r : Response} (s : State) (h : r.isProgramFault = true) :
    (s.deliver r).programFaults = s.programFaults ++ [r] := by
  simp [State.programFaults, h]

/-- A run with a fault of the host program has not ended successfully (R153, R154, R180). -/
theorem State.succeeded_of_programFaults {s : State} (h : s.programFaults ≠ []) : s.succeeded = false := by
  simp [State.succeeded, h]

/-- Settles O34: the command is taken like any other, and its one step delivers ERR_ILLEGAL, a fault of the host
program. -/
theorem illegalCommandIsAnsweredAndForgotten : Obligations.IllegalCommandIsAnsweredAndForgotten := by
  unfold Obligations.IllegalCommandIsAnsweredAndForgotten
  intro s c hd
  rw [planCommand_of_illegal hd]
  refine ⟨rfl, rfl, fun q hp hq => step_of_present_ready hq hp, fun hp h => ?_⟩
  have hstep : step s = .next (s.deliver illegalPlan.response) :=
    (step_of_busy hp h).trans (runCommand_answers_of_illegal hd)
  refine ⟨hstep, fun t ht => ?_⟩
  obtain rfl : s.deliver illegalPlan.response = t := by simpa [hstep] using ht
  have hfaults := s.deliver_programFaults (r := illegalPlan.response) rfl
  exact ⟨hfaults, State.succeeded_of_programFaults (by simp [hfaults]), rfl⟩

end Sys2Proof.Machine
end

section
/-! PROOFS. Reset, the command port and the end of a run (70_reset_and_hazards.md R170, R171, R175, R179, R180). -/

namespace Sys2Proof.Machine

open Sys2Proof.Claims

/-! ### The end of a run (R180) -/

/-- A run has ended when no move is left, BUSY = 0 and no reset has landed (log entries 14 and 16). -/
theorem State.ended_iff {s : State} :
    s.ended = true ↔ s.host = [] ∧ s.busy = false ∧ s.resetLanded = false := by
  simp [State.ended, and_assoc]

theorem State.programFaults_eq_nil {s : State} :
    s.programFaults = [] ↔ ∀ r ∈ s.observed, r.status ≠ 0x01 ∧ r.status ≠ 0x02 := by
  simp [State.programFaults, Response.isProgramFault]

theorem State.succeeded_iff {s : State} :
    s.succeeded = true ↔ s.ended = true ∧ s.contractFaults = [] ∧
      ∀ r ∈ s.observed, r.status ≠ 0x01 ∧ r.status ≠ 0x02 := by
  rw [← State.programFaults_eq_nil]
  simp [State.succeeded, and_assoc]

/-- How many commands have no response yet: those still to be presented, and the one at the port while BUSY = 1. -/
def State.unanswered (s : State) : Nat := s.host.length + s.busy.toNat

/-- Nothing is unanswered exactly when no move is left and BUSY = 0. -/
theorem State.unanswered_eq_zero {s : State} : s.unanswered = 0 ↔ s.host = [] ∧ s.busy = false := by
  simp [State.unanswered]

/-- What a run of `n` commands from its launch keeps: the host's moves left are presentations, no reset has landed, and
each of the `n` commands has its response or is still unanswered. -/
structure State.RunsProgramOf (n : Nat) (s : State) : Prop where
  presentations : ∀ m ∈ s.host, ∃ c, m = .present c
  noReset : s.resetLanded = false
  counted : s.observed.length + s.unanswered = n

theorem State.launch_runsProgramOf (program : List Command) (mem : Memory) (readOK writeOK : List Region) :
    (State.launch program mem readOK writeOK).RunsProgramOf program.length where
  presentations := by simp [State.launch]
  noReset := rfl
  counted := by simp [State.launch, State.unanswered, State.busy, State.reset]

theorem State.unanswered_of_not_busy {s : State} (h : s.busy = false) : s.unanswered = s.host.length := by
  simp [State.unanswered, h]

theorem State.unanswered_of_busy {s : State} (h : s.busy = true) : s.unanswered = s.host.length + 1 := by
  simp [State.unanswered, h]

/-- A command at the port moves to the responses when it ends, or stays unanswered when it is lost. -/
theorem complete_counts {p : Plan} {s : State} (hb : s.busy = true) :
    (complete p s).observed.length + (complete p s).unanswered = s.observed.length + s.unanswered := by
  obtain ⟨-, e⟩ | ⟨f, -, e⟩ := complete_cases p s
  · have hb' : (complete p s).busy = false := by rw [e]; rfl
    rw [State.unanswered_of_not_busy hb', State.unanswered_of_busy hb, e]
    simp only [State.deliver_observed, State.deliver_host, List.length_append, List.length_singleton]
    omega
  · have hb' : (complete p s).busy = true := by rw [e]; rfl
    rw [State.unanswered_of_busy hb', State.unanswered_of_busy hb, e, State.raise_observed, State.raise_host]

/-- By the cases of the step: the command in flight ends, nothing is left to do, or a command presented is taken. -/
theorem State.RunsProgramOf.step {n : Nat} {s t : State} (hs : s.RunsProgramOf n) (h : Machine.step s = .next t) :
    t.RunsProgramOf n := by
  obtain ⟨hpresent, hreset, hcount⟩ := hs
  obtain ⟨c, hp, rfl⟩ | ⟨-, rfl, -⟩ | ⟨c, q, hh, hp, rfl⟩ | ⟨q, hh, -, -⟩ | ⟨q, r, hh, -, -⟩ | ⟨a, v, q, hh, -, -⟩ |
    ⟨a, q, hh, -⟩ | ⟨q, hh, -⟩ := step_cases h
  · obtain ⟨-, -, -, hhost, hmark⟩ := complete_frame (planCommand c s) s
    exact ⟨hhost ▸ hpresent, hmark.trans hreset, (complete_counts (by simp [State.busy, hp])).trans hcount⟩
  · exact ⟨hpresent, hreset, hcount⟩
  · refine ⟨fun m hm => hpresent m (hh ▸ List.mem_cons_of_mem _ hm), hreset, ?_⟩
    rw [State.unanswered_of_not_busy (s.busy_eq_false.2 hp), hh] at hcount
    rw [State.unanswered_of_busy rfl]
    exact hcount
  all_goals simp [hh] at hpresent

/-- In such a run every command has its response exactly when the run has ended. -/
theorem State.RunsProgramOf.ended_iff {n : Nat} {s : State} (hs : s.RunsProgramOf n) :
    s.ended = true ↔ s.observed.length = n := by
  obtain ⟨-, hreset, hcount⟩ := hs
  have hzero : s.observed.length = n ↔ s.unanswered = 0 := by omega
  rw [hzero, State.unanswered_eq_zero, State.ended_iff]
  simp [hreset]

/-- Settles O35: a run from the launch counts each command as answered or unanswered, so it has ended exactly when all
are answered. -/
theorem successMeansNoFaultOfAnyKind : Obligations.SuccessMeansNoFaultOfAnyKind := by
  unfold Obligations.SuccessMeansNoFaultOfAnyKind
  refine ⟨fun program mem readOK writeOK k t hrun => ?_, fun s hs => ?_⟩
  · have ht : t.RunsProgramOf program.length :=
      run_keeps (fun _ _ => State.RunsProgramOf.step) (State.launch_runsProgramOf program mem readOK writeOK) hrun
    rw [State.succeeded_iff, ht.ended_iff]
  · obtain ⟨hended, hfaults, hstatus⟩ := State.succeeded_iff.1 hs
    obtain ⟨hhost, hbusy, hreset⟩ := State.ended_iff.1 hended
    exact ⟨hhost, hbusy, hfaults, hreset, hstatus⟩

/-! ### The command port (R175, R179) -/

/-- With no host move in its way the command in flight completes its plan (R47). -/
theorem step_of_busy_eq_complete {s : State} {c : Command} (hp : s.port = .busy c) (h : NothingInTheWay s) :
    step s = .next (complete (planCommand c s) s) :=
  (step_of_busy hp h).trans (runCommand_eq_complete c s)

/-- A command that delivers a response sets BUSY back to 0. -/
theorem complete_busy_of_observed {p : Plan} {s : State} {r : Response}
    (h : (complete p s).observed = s.observed ++ [r]) : (complete p s).busy = false := by
  obtain hsame | ⟨r', -, -, hready⟩ := complete_observed p s
  · simp [hsame] at h
  · exact (State.busy_eq_false _).2 hready

/-- Settles O39, by the state of the port: a ready one takes the command, with one in flight that one ends while the host
goes on presenting, and a lost one goes no further. -/
theorem portTakesACommandOnlyWhenNotBusy : Obligations.PortTakesACommandOnlyWhenNotBusy := by
  unfold Obligations.PortTakesACommandOnlyWhenNotBusy
  intro s c q hh
  have hway : NothingInTheWay s := .inr (.inl ⟨c, q, hh⟩)
  refine ⟨fun hb => ?_, fun hb t ht => ?_⟩
  · exact ⟨_, step_of_present_ready hh (s.busy_eq_false.1 hb), rfl, rfl, rfl, rfl, rfl⟩
  · cases hp : s.port with
    | ready => simp [State.busy, hp] at hb
    | busy d =>
      rw [step_of_busy_eq_complete hp hway] at ht
      cases ht
      obtain ⟨-, -, -, hhost, -⟩ := complete_frame (planCommand d s) s
      exact ⟨hhost.trans hh, fun r => complete_busy_of_observed⟩
    | lost f =>
      rw [step_of_lost hp hway] at ht
      cases ht

/-- Settles O40: the step completes the command's plan, which delivers the response or raises the contract fault. -/
theorem inFlightCommandResponds : Obligations.InFlightCommandResponds := by
  unfold Obligations.InFlightCommandResponds
  intro s c hp hway
  obtain ⟨-, -, -, hhost, -⟩ := complete_frame (planCommand c s) s
  refine ⟨_, step_of_busy_eq_complete hp hway, hhost, ?_⟩
  obtain ⟨-, e⟩ | ⟨f, -, e⟩ := complete_cases (planCommand c s) s
  · exact .inl (by simp [e])
  · exact .inr ⟨f, by simp [e]⟩

/-! ### Reset (R170, R171) -/

/-- A reset with a command in flight leaves what abandoning that command leaves in memory. -/
theorem State.takeReset_mem_of_busy {s : State} {c : Command} (hp : s.port = .busy c) :
    s.takeReset.mem = (abandon (planCommand c s) s).mem := by
  simp only [State.takeReset, hp]

/-- The same for the record of contract faults. -/
theorem State.takeReset_contractFaults_of_busy {s : State} {c : Command} (hp : s.port = .busy c) :
    s.takeReset.contractFaults = (abandon (planCommand c s) s).contractFaults := by
  simp only [State.takeReset, hp]

/-- A reset with no command in flight touches the port, the message and its own mark alone. -/
theorem State.takeReset_of_not_busy {s : State} (hp : ∀ c, s.port ≠ .busy c) :
    s.takeReset = { s with port := .ready, response := none, resetLanded := true } := by
  unfold State.takeReset
  split
  case h_1 hready => rw [← hready]
  case h_2 c hbusy => exact absurd hbusy (hp c)
  case h_3 => rfl

/-- A command that would have kept its contract leaves its abandoned cells when reset abandons it. -/
theorem abandon_of_none {p : Plan} {s : State} (h : p.contractFault s = none) :
    abandon p s =
      { s with mem := s.mem.writeAll (abandonCells s.mem s.draws p.writes), draws := s.draws + p.writes.length } := by
  rw [abandon, h]

/-- Byte `k` of an abandoned command's writes is new or old by draw `draws + k` (R171). -/
theorem abandon_read_cell {p : Plan} {s : State} {k a : Nat} {v : Byte} (hm : s.mem.wf = true)
    (hn : p.contractFault s = none) (hd : p.writeSet.Nodup) (hk : p.writes[k]? = some (a, v)) :
    (abandon p s).mem.read a = if Config.freeChoice (s.draws + k) then v else s.mem.read a := by
  obtain ⟨-, hwritable, -⟩ := Plan.contractFault_eq_none.1 hn
  rw [abandon_of_none hn]
  refine Memory.read_writeAll_mem hm (fun c hc => ?_) ?_ (getElem_abandonCells hk)
  · exact State.lt_of_writable (hwritable c.1 (mem_abandonCells hc))
  · rw [map_fst_abandonCells]
    exact hd

/-- Settles O46: reset abandons the plan of the command in flight, which writes one cell of its own draw for each byte of
the write set. -/
theorem resetInFlightLeavesEachByteOldOrNew : Obligations.ResetInFlightLeavesEachByteOldOrNew := by
  unfold Obligations.ResetInFlightLeavesEachByteOldOrNew
  intro s c q hh hp hm
  refine ⟨_, step_of_reset hh, State.takeReset_port _, State.takeReset_response _, State.takeReset_observed _,
    State.takeReset_rom _, State.takeReset_host _, ?_⟩
  rw [State.takeReset_mem_of_busy (s := { s with host := q }) hp,
    State.takeReset_contractFaults_of_busy (s := { s with host := q }) hp, planCommand_withHost s c q]
  refine ⟨fun a ha => abandon_frame_mem ha, fun hn => ?_⟩
  have hn' : (planCommand c s).contractFault { s with host := q } = none :=
    (Plan.contractFault_congr rfl rfl).trans hn
  refine ⟨fun k a v hk => ?_, ?_⟩
  · exact abandon_read_cell (s := { s with host := q }) hm hn' (planCommand_writeSet_nodup c s) hk
  · rw [abandon_of_none hn']

/-- Settles O45: every reset leaves a ready port, which takes the command presented next. -/
theorem resetMakesTheBlockReady : Obligations.ResetMakesTheBlockReady := by
  unfold Obligations.ResetMakesTheBlockReady
  intro s q hh
  have hport := State.takeReset_port { s with host := q }
  have hhost := State.takeReset_host { s with host := q }
  refine ⟨⟨_, step_of_reset hh, (State.busy_eq_false _).2 hport, State.takeReset_response _, State.takeReset_rom _,
    hhost, fun c q' hq => ?_⟩, fun hp => ?_⟩
  · exact ⟨_, step_of_present_ready (hhost.trans hq) hport, rfl, rfl⟩
  · rw [step_of_reset hh, State.takeReset_of_not_busy (s := { s with host := q }) hp]

/-- Settles O52, its second clause by the cases of the step: a command that ends keeps the mark (`complete_frame`), a
reset sets it, and no other move touches it. -/
theorem runsWithAResetNeverCountAsEnded : Obligations.RunsWithAResetNeverCountAsEnded := by
  unfold Obligations.RunsWithAResetNeverCountAsEnded
  refine ⟨fun s t q hh ht => ?_, fun s t h hs => ?_, fun s hs => ?_⟩
  · rw [step_of_reset hh] at ht
    cases ht
    exact State.takeReset_resetLanded _
  · obtain ⟨c, -, rfl⟩ | ⟨-, rfl, -⟩ | ⟨c, q, -, -, rfl⟩ | ⟨q, -, -, rfl⟩ | ⟨q, r, -, -, rfl⟩ | ⟨a, v, q, -, rfl, -⟩ |
      ⟨a, q, -, rfl⟩ | ⟨q, -, rfl⟩ := step_cases h
    case inl =>
      obtain ⟨-, -, -, -, hmark⟩ := complete_frame (planCommand c s) s
      exact hmark.trans hs
    all_goals simp [hs]
  · simp [State.succeeded, State.ended, hs]

end Sys2Proof.Machine
end
